-- ==== Sys2Proof/Word.lean ====
section
/-! DEFINITION. The widths of spec/00_scope.md R6 and R8: the word, the byte, the command word, the response word
and the micro-op select word. All values are unsigned (R8, R130). -/

namespace Sys2Proof

/-- A word: 32 bits, unsigned (R8; parameter `WORD` of R6). `+` on it is `add32` (R131): the carry is dropped. -/
abbrev Word := BitVec 32

/-- A byte: 8 bits, unsigned (R8). -/
abbrev Byte := BitVec 8

/-- A host command word CW (R101; parameter `CW_BITS` of R6). -/
abbrev CommandWord := BitVec 40

/-- A response RSP (R106; parameter `RSP_BITS` of R6). -/
abbrev ResponseWord := BitVec 33

/-- A micro-op select word USEL (R111). -/
abbrev SelectWord := BitVec 7

end Sys2Proof
end

