-- ==== Sys2Proof/Machine/State.lean ====
section
/-! DEFINITION. The architectural state of one engine instance (spec/10_state.md R30, R50), the outside world as plain
data (log 3, log 4, log 5), the state after reset (R55), and the reasons a step can stop. -/

namespace Sys2Proof.Machine

/-- `PP`, the padding-controller phase (R38). Code 7 is "never taken" and has no constructor (93 U13). -/
inductive PadPhase where
  | idle
  | recv
  | pad80
  | pad00
  | padlen
  | done
  | fault
deriving DecidableEq, Repr

/-- `CP`, the compression-core phase (R39). Codes 6 and 7 are "never taken" and have no constructor (93 U13). -/
inductive CorePhase where
  | cidle
  | load
  | expand
  | init
  | round
  | fold
deriving DecidableEq, Repr

/-- `CAUSE` (R45, R241): "a model's cause type has exactly the values 0..4" (93 U12). -/
inductive Cause where
  /-- Code 0, `NONE`. -/
  | none
  /-- Code 1, `ILLEGAL_CMD` (R245). -/
  | illegalCmd
  /-- Code 2, `PUSH_UNEXPECTED` (R242). -/
  | pushUnexpected
  /-- Code 3, `START_WHILE_RECEIVING` (R243). -/
  | startWhileReceiving
  /-- Code 4, `READ_NO_DIGEST` (R244). -/
  | readNoDigest
deriving DecidableEq, Repr

/-- The rows of the disposition table (R211): NOP, RDS and ABORT share one row shape, RDB and RDW another. -/
inductive CommandKind where
  /-- `NOP`, `RDS`, `ABORT`. -/
  | always
  /-- `START`. -/
  | start
  /-- `PUSHB`. -/
  | push
  /-- `RDB`, `RDW`. -/
  | read
  /-- An illegal word. -/
  | illegal
deriving DecidableEq, Repr

/-- What happens to a command in a given state (R13, R211). -/
inductive Disposition where
  | accept
  | hold
  | fault (k : Cause)
  | reject
deriving DecidableEq, Repr

/-- A response (R106): `ok(d)` is `⟨false, d⟩`, `err(c)` is `⟨true, c⟩`. -/
structure Response where
  err : Bool
  data : Word
deriving DecidableEq, Repr

/-- Whose step the next one is (R7: host and engine; R270: the environment's reset). -/
inductive Turn where
  /-- The engine performs the enabled micro-op, if one is enabled (R112). -/
  | engine
  /-- The presented command word, if there is one, is processed (R218). -/
  | command
  /-- The host presents its next command word, if the port is free (R100). -/
  | present
  /-- The reset input is asserted (R270). -/
  | rst
deriving DecidableEq, Repr

/-- The block buffer as a sparse memory: `(index, byte)` pairs with indices strictly rising; an index not listed holds
⊥ (R35, R58; log 10). -/
abbrev Memory := List Host.Cell

/-- The state. The first twelve fields are the tuple of R30; a cell `none` holds ⊥ (R58). `port` and `rsp` are R50 (a)
and (b). `host`, `sched` and `epoch` are the model's own: the outside world and the free values' counter (log 2, log 3,
log 4). -/
structure State where
  /-- `V[0..7]`, the working variables a..h (R31). -/
  v : Vector (Option Word) 8
  /-- `H[0..7]`, the hash state (R33). -/
  h : Vector (Option Word) 8
  /-- `W[0..63]`, the message schedule (R34). -/
  w : Vector (Option Word) 64
  /-- `B[0..63]`, the block buffer (R35). -/
  b : Memory
  /-- `PP` (R38). -/
  pp : PadPhase
  /-- `CP` (R39). -/
  cp : CorePhase
  /-- `T`, 6 bits, 0..63 (R40). -/
  t : Fin 64
  /-- `N`, 7 bits, 0..64 (R41). -/
  n : Fin 65
  /-- `Q`, 4 bits, 0..8 (R42). -/
  q : Fin 9
  /-- `LEN`, 32 bits (R43). -/
  len : Word
  /-- `CNT`, 32 bits (R44). -/
  cnt : Word
  /-- `CAUSE`, 4 bits (R45). -/
  cause : Cause
  /-- The command port: the word presented and not yet taken (R50 (a), R100). -/
  port : Option CommandWord
  /-- The response channel: the responses emitted so far, the first one first (R50 (b)). -/
  rsp : List Response
  /-- The command words the host has yet to present, in order (log 4). -/
  host : List CommandWord
  /-- Whose steps the next ones are; after the last one the engine goes first (log 3). -/
  sched : List Turn
  /-- How many times the cells have been wiped to ⊥: selects the free values (log 2). -/
  epoch : Nat
deriving DecidableEq, Repr

/-- The state after reset: every line of the table of R55. H is NOT loaded with the initial hash values (R272). The
outside world is empty and nothing has been answered (DESIGN CHOICE, log 2, log 3, log 4, log 6). -/
def State.reset : State where
  v := Vector.replicate 8 none
  h := Vector.replicate 8 none
  w := Vector.replicate 64 none
  b := []
  pp := .idle
  cp := .cidle
  t := 0
  n := 0
  q := 0
  len := 0
  cnt := 0
  cause := .none
  port := none
  rsp := []
  host := []
  sched := []
  epoch := 0

/-- Why the machine stops. The protocol faults of 60_exceptions.md are no stops: they are next states (R246). Each
reason here is raised only by a micro-op performed where its own rule says it never is (R52 items 8 and 11, R76), so no
run from reset meets one. All are safe (log 8). -/
inductive Fault where
  /-- Raised by `P80`, `P00`, `PLEN`, `PUSHB` with N = 64 and by `LDW` with T > 15: the block buffer has no such index
  (R49, R76). Safe. -/
  | bufferIndex
  /-- Raised by `EXP` with T < 16: the schedule has no word T-16 (R49, R181). Safe. -/
  | scheduleIndex
  /-- Raised by `PLEN` with Q = 8: the length field has eight bytes (R42, R163). Safe. -/
  | lengthByte
deriving DecidableEq, Repr

/-- Why an instruction has no meaning. -/
inductive Refusal where
  /-- Raised by `exec` for an instruction whose meaning is not written yet; no arm does now. Safe. -/
  | notModelled (mnemonic : String)
deriving DecidableEq, Repr

end Sys2Proof.Machine
end

