-- ==== Sys2Proof/Machine/Flags.lean ====
section
/-! DEFINITION. The status bits, STATUS (spec/10_state.md R46, R47) and the micro-op select word USEL
(spec/30_encoding.md R111), computed from the state; the responses as 33-bit words (R106). There are no arithmetic
flags (R47). -/

namespace Sys2Proof.Machine

/-- The codes of PP (R38). -/
def PadPhase.code : PadPhase → BitVec 3
  | .idle => 0
  | .recv => 1
  | .pad80 => 2
  | .pad00 => 3
  | .padlen => 4
  | .done => 5
  | .fault => 6

/-- The codes of CP (R39). -/
def CorePhase.code : CorePhase → BitVec 3
  | .cidle => 0
  | .load => 1
  | .expand => 2
  | .init => 3
  | .round => 4
  | .fold => 5

/-- The cause as the four bits of STATUS[15:12] (R45, R241). -/
def Cause.bits : Cause → BitVec 4
  | .none => 0
  | .illegalCmd => 1
  | .pushUnexpected => 2
  | .startWhileReceiving => 3
  | .readNoDigest => 4

/-- A computation is in progress in these phases (the BUSY bit of R46). -/
def PadPhase.busy : PadPhase → Bool
  | .idle => false
  | .recv => true
  | .pad80 => true
  | .pad00 => true
  | .padlen => true
  | .done => false
  | .fault => false

/-- `NFULL`: 1 if N = 64 else 0 (R41, R46). -/
def nfull (s : State) : Bool := s.n.val == 64

/-- `READY`: a `PUSHB` would be accepted now (R46). -/
def ready (s : State) : Bool := s.pp == .recv && s.cp == .cidle && decide (s.n.val < 64)

/-- `VALID`: the digest can be read (R46). -/
def valid (s : State) : Bool := s.pp == .done

/-- `ERR` (R46). -/
def errBit (s : State) : Bool := s.pp == .fault

/-- `BUSY` (R46). -/
def busy (s : State) : Bool := s.pp.busy

/-- One bit. -/
def bit (x : Bool) : BitVec 1 := BitVec.ofBool x

/-- `USEL = CP ‖ NFULL ‖ PP` (R111). -/
def selectWord (s : State) : BitVec 7 := s.cp.code ++ (bit (nfull s) ++ s.pp.code)

/-- `STATUS` (R46), its fields from bit 31 down: reserved, CAUSE, BUSY, ERR, VALID, READY, reserved, CPHASE, NFULL,
PHASE. -/
def status (s : State) : Word :=
  0#16 ++ (s.cause.bits ++ (bit (busy s) ++ (bit (errBit s) ++ (bit (valid s) ++ (bit (ready s) ++
    (0#1 ++ selectWord s))))))

/-- A response as the 33-bit word RSP (R106): `err` in bit 32, `data` in bits 31:0. -/
def Response.word (r : Response) : BitVec 33 := bit r.err ++ r.data

end Sys2Proof.Machine
end

