-- ==== Sys2Proof/Config.lean ====
section
/-! DEFINITION. The fixed parameters of spec/00_scope.md R6 and the model's free values: what a read of a cell that
holds no value (⊥, spec/10_state.md R58) gives. -/

namespace Sys2Proof

namespace Config

/-- "A constant `DIGEST_LENGTH = 32` must be exposed" (R6): bytes of the output. -/
def digestLength : Nat := 32

/-- `BLOCK_BYTES` (R6). -/
def blockBytes : Nat := 64

/-- `BLOCK_WORDS` (R6). -/
def blockWords : Nat := 16

/-- `SCHED_WORDS` (R6). -/
def schedWords : Nat := 64

/-- `ROUNDS` (R6). -/
def rounds : Nat := 64

/-- `STATE_WORDS` (R6). -/
def stateWords : Nat := 8

/-- `LEN_BITS` (R6). -/
def lenBits : Nat := 32

/-- `L_MAX` (R6): the largest message of one computation, in bytes. -/
def lMax : Nat := 2 ^ 32 - 1

/-- `BITLEN_BITS` (R6). -/
def bitLenBits : Nat := 64

/-- `PAD_THRESHOLD` (R6). -/
def padThreshold : Nat := 56

/-! The free values. DESIGN CHOICE, safe (log 1, log 2): 93_implementation_defined.md U16 gives a cell at ⊥ `any
value`; the first argument counts the wipes to ⊥ so far (`State.epoch`), the second is the cell's index. None has a
body, so nothing can be proved of the value. -/

/-- What the hash-state cell `H[i]` reads as while it holds ⊥. -/
opaque unwrittenH : Nat → Nat → Word

/-- What the working variable `V[i]` reads as while it holds ⊥. -/
opaque unwrittenV : Nat → Nat → Word

/-- What the schedule cell `W[t]` reads as while it holds ⊥. -/
opaque unwrittenW : Nat → Nat → Word

/-- What the block-buffer cell `B[a]` reads as while it holds ⊥. -/
opaque unwrittenB : Nat → Nat → Byte

end Config

end Sys2Proof
end

