-- ==== Sys2Proof/Machine/Functions.lean ====
section
/-! DEFINITION. The functional layer (spec/40_functions.md): rotations and shifts, the six mixing functions, the
constant tables, the round function, and `pad`, `blocks`, `schedule`, `compress`, `ser`, `compute`. The source fixes
`pad`, the word order, the recurrence, the add-back and the serialisation; the mixing functions, the round formula and
the tables are the general knowledge that the spec prints (GK1 to GK8; TESTED, log 11). `+` on words is `add32` (R131). -/

namespace Sys2Proof.Machine

/-- `ROTR(x, n)` for 0 < n < 32, the formula of R133. -/
def rotr (x : Word) (n : Nat) : Word := (x >>> n) ||| (x <<< (32 - n))

/-- `SHR(x, n)` (R134): zeros enter at the top. -/
def shr (x : Word) (n : Nat) : Word := x >>> n

/-- `σ0` (R135). -/
def ssig0 (x : Word) : Word := rotr x 7 ^^^ rotr x 18 ^^^ shr x 3

/-- `σ1` (R136). -/
def ssig1 (x : Word) : Word := rotr x 17 ^^^ rotr x 19 ^^^ shr x 10

/-- `Σ0` (R137). -/
def bsig0 (x : Word) : Word := rotr x 2 ^^^ rotr x 13 ^^^ rotr x 22

/-- `Σ1` (R138). -/
def bsig1 (x : Word) : Word := rotr x 6 ^^^ rotr x 11 ^^^ rotr x 25

/-- `Ch` (R139). -/
def ch (x y z : Word) : Word := (x &&& y) ^^^ (~~~x &&& z)

/-- `Maj` (R139). -/
def maj (x y z : Word) : Word := (x &&& y) ^^^ (x &&& z) ^^^ (y &&& z)

/-- The round constants, the rows of R140 in order; checked as R274 asks by `TablesChecked`. -/
def roundConstants : List Word :=
  [0x428a2f98, 0x71374491, 0xb5c0fbcf, 0xe9b5dba5, 0x3956c25b, 0x59f111f1, 0x923f82a4, 0xab1c5ed5] ++
  [0xd807aa98, 0x12835b01, 0x243185be, 0x550c7dc3, 0x72be5d74, 0x80deb1fe, 0x9bdc06a7, 0xc19bf174] ++
  [0xe49b69c1, 0xefbe4786, 0x0fc19dc6, 0x240ca1cc, 0x2de92c6f, 0x4a7484aa, 0x5cb0a9dc, 0x76f988da] ++
  [0x983e5152, 0xa831c66d, 0xb00327c8, 0xbf597fc7, 0xc6e00bf3, 0xd5a79147, 0x06ca6351, 0x14292967] ++
  [0x27b70a85, 0x2e1b2138, 0x4d2c6dfc, 0x53380d13, 0x650a7354, 0x766a0abb, 0x81c2c92e, 0x92722c85] ++
  [0xa2bfe8a1, 0xa81a664b, 0xc24b8b70, 0xc76c51a3, 0xd192e819, 0xd6990624, 0xf40e3585, 0x106aa070] ++
  [0x19a4c116, 0x1e376c08, 0x2748774c, 0x34b0bcb5, 0x391c0cb3, 0x4ed8aa4a, 0x5b9cca4f, 0x682e6ff3] ++
  [0x748f82ee, 0x78a5636f, 0x84c87814, 0x8cc70208, 0x90befffa, 0xa4506ceb, 0xbef9a3f7, 0xc67178f2]

/-- `K[t]`, t = 0..63, a constant ROM (R36, R140). -/
def roundK (t : Nat) : Word := roundConstants.getD t 0

/-- `IV[0..7]`, a constant ROM (R36, R141); checked as R274 asks by `TablesChecked`. -/
def initialHash : Vector Word 8 :=
  #v[0x6a09e667, 0xbb67ae85, 0x3c6ef372, 0xa54ff53a, 0x510e527f, 0x9b05688c, 0x1f83d9ab, 0x5be0cd19]

/-- `T1` of R142: the five-term sum. -/
def roundT1 (v : Vector Word 8) (k w : Word) : Word := v[7] + bsig1 v[4] + ch v[4] v[5] v[6] + k + w

/-- `T2` of R142. -/
def roundT2 (v : Vector Word 8) : Word := bsig0 v[0] + maj v[0] v[1] v[2]

/-- `round(v, k, w)` (R142): all eight results are computed from the old values. -/
def round (v : Vector Word 8) (k w : Word) : Vector Word 8 :=
  #v[roundT1 v k w + roundT2 v, v[0], v[1], v[2], v[3] + roundT1 v k w, v[4], v[5], v[6]]

/-- The element-wise sum mod 2^32 of the add-back (R148, R194). -/
def addWords (x y : Vector Word 8) : Vector Word 8 :=
  #v[x[0] + y[0], x[1] + y[1], x[2] + y[2], x[3] + y[3], x[4] + y[4], x[5] + y[5], x[6] + y[6], x[7] + y[7]]

/-- Four bytes as a big-endian word, the first byte the most significant (R71). -/
def wordOfBytes (b0 b1 b2 b3 : Byte) : Word := b0 ++ (b1 ++ (b2 ++ b3))

/-- `BITLEN = zext_64(LEN) << 3` (R48). -/
def bitLen (len : Word) : BitVec 64 := len.zeroExtend 64 <<< 3

/-- Byte q = 0..7 of the 64-bit length field, `BITLEN[63-8q : 56-8q]`: the most significant first (R72). -/
def lengthByte (bits : BitVec 64) (q : Nat) : Byte := bits.extractLsb' (56 - 8 * q) 8

/-- `be64(x)`: the eight bytes, most significant first (R143). -/
def be64 (x : BitVec 64) : List Byte := (List.range 8).map (lengthByte x)

/-- `z = (55 - L) mod 64` (R143), the number of zero bytes, written without a negative number. -/
def zeroCount (l : Nat) : Nat := (119 - l % 64) % 64

/-- `pad(M) = M ‖ 0x80 ‖ 0x00^z ‖ be64(8·L)` (R143). -/
def pad (m : List Byte) : List Byte :=
  m ++ [0x80] ++ List.replicate (zeroCount m.length) 0x00 ++ be64 (BitVec.ofNat 64 (8 * m.length))

/-- `NB(L) = (L + 8) div 64 + 1` (R144). -/
def blockCount (l : Nat) : Nat := (l + 8) / 64 + 1

/-- `blocks(M)[k]`: bytes 64k..64k+63 of `pad(M)` (R145). -/
def block (m : List Byte) (k : Nat) : List Byte := ((pad m).drop (64 * k)).take 64

/-- `blocks(M)` (R145): `pad(M)` cut into consecutive 64-byte pieces. -/
def blocks (m : List Byte) : List (List Byte) := (List.range (blockCount m.length)).map (block m)

/-- Word t = 0..15 of a block (R71, R146). -/
def blockWord (blk : List Byte) (t : Nat) : Word :=
  wordOfBytes (blk.getD (4 * t) 0) (blk.getD (4 * t + 1) 0) (blk.getD (4 * t + 2) 0) (blk.getD (4 * t + 3) 0)

/-- The sum of the schedule recurrence (R146, R181) of its four words W[t-2], W[t-7], W[t-15], W[t-16]. -/
def expandWord (w2 w7 w15 w16 : Word) : Word := ssig1 w2 + w7 + ssig0 w15 + w16

/-- The first 16 + k words of the schedule of a block (R146). -/
def scheduleWords (blk : List Byte) : Nat → List Word
  | 0 => (List.range 16).map (blockWord blk)
  | k + 1 =>
    let ws := scheduleWords blk k
    ws ++ [expandWord (ws.getD (k + 14) 0) (ws.getD (k + 9) 0) (ws.getD (k + 1) 0) (ws.getD k 0)]

/-- `schedule(blk)`: the 64 words (R146). -/
def schedule (blk : List Byte) : List Word := scheduleWords blk 48

/-- `v(t)` of R148: the working variables before round t, from the state `s` and the schedule `ws`. -/
def roundsUpTo (s : Vector Word 8) (ws : List Word) : Nat → Vector Word 8
  | 0 => s
  | t + 1 => round (roundsUpTo s ws t) (roundK t) (ws.getD t 0)

/-- `compress(S, blk)` (R148). -/
def compress (s : Vector Word 8) (blk : List Byte) : Vector Word 8 :=
  addWords s (roundsUpTo s (schedule blk) 64)

/-- `S(b)` of R150: the hash state after the first b blocks of `pad(M)`. -/
def hashAfter (m : List Byte) : Nat → Vector Word 8
  | 0 => initialHash
  | b + 1 => compress (hashAfter m b) (block m b)

/-- Byte k = 0..3 of a word, the most significant first: `(x >> (8·(3 - k))) & 0xFF` (R73, R149). -/
def wordByte (x : Word) (k : Nat) : Byte := (x >>> (8 * (3 - k))).setWidth 8

/-- `be32(x)` (R149). -/
def be32 (x : Word) : List Byte := [wordByte x 0, wordByte x 1, wordByte x 2, wordByte x 3]

/-- `ser(S)`: the eight words as big-endian bytes, concatenated (R149). -/
def ser (s : Vector Word 8) : List Byte := s.toList.flatMap be32

/-- `compute(M)` (R150). -/
def compute (m : List Byte) : List Byte := ser (hashAfter m (blockCount m.length))

/-! ### The check of the tables that R274 demands before any proof is built on them -/

/-- A digest as spec/95_test_vectors.md prints it: the number its hexadecimal digits write, the first byte first. -/
def digestNumber (m : List Byte) : Nat := (compute m).foldl (fun n x => 256 * n + x.toNat) 0

/-- The two digests the spec's source prints, of the empty message (V1) and of "abc" (V2), and from section 2.5 of
spec/95_test_vectors.md the digest of 56 times 'a', whose padding makes two blocks. -/
def referenceDigests : List (List Byte × Nat) := [
  ([], 0xe3b0c44298fc1c149afbf4c8996fb92427ae41e4649b934ca495991b7852b855),
  ([0x61, 0x62, 0x63], 0xba7816bf8f01cfea414140de5dae2223b00361a396177a9cb410ff61f20015ad),
  (List.replicate 56 0x61, 0xb35439a4ac6f0948b6d6f9e3c6af0f5f590ce20f1bde7090ef7970686ec6738a)]

/-- R274: the tables K and IV against the vectors of spec/95_test_vectors.md: the entries and the checksums of section
2.1, and the reference digests. The tests prove it (`test_tables_checked`). -/
structure TablesChecked : Prop where
  entries : [0, 1, 31, 32, 63].map roundK = [0x428a2f98, 0x71374491, 0x14292967, 0x27b70a85, 0xc67178f2]
  sumK : roundConstants.length = 64 ∧ roundConstants.foldl (· + ·) 0 = 0x941d1755
  xorK : roundConstants.foldl (· ^^^ ·) 0 = 0x95c49cf5
  sumIV : initialHash.toList.foldl (· + ·) 0 = 0x6ea8df67
  xorIV : initialHash.toList.foldl (· ^^^ ·) 0 = 0xc62760eb
  digests : ∀ v ∈ referenceDigests, (compute v.1).length = 32 ∧ digestNumber v.1 = v.2

end Sys2Proof.Machine
end

