-- ==== Sys2Proof/Machine/Ops.lean ====
section
/-! DEFINITION. The shared operations: the block buffer as a memory, the writes of the register files, the response,
taking a protocol fault (spec/60_exceptions.md R246) and returning from it (R252), the disposition of a command
(spec/44_host_commands.md R211) and its execution order (R218). -/

namespace Sys2Proof.Machine

/-- The outcome of a step. -/
abbrev Result := Host.Outcome State Fault Refusal

/-! ### The block buffer (R35) -/

/-- The canonical form: indices strictly rising, all in 0..63 (R49). No listed byte is ⊥, which is what an unlisted
index holds. -/
abbrev Memory.wf (m : Memory) : Prop :=
  m.Pairwise (fun x y => x.1 < y.1) ∧ ∀ x ∈ m, x.1 < 64

/-- The byte at an index; `none` is ⊥. -/
def Memory.read : Memory → Nat → Option Byte
  | [], _ => none
  | (k, x) :: m, a => if k = a then some x else Memory.read m a

/-- Writing a byte, keeping the indices in rising order. -/
def Memory.write : Memory → Nat → Byte → Memory
  | [], a, x => [(a, x)]
  | (k, y) :: m, a, x =>
    if a < k then (a, x) :: (k, y) :: m
    else if a = k then (a, x) :: m
    else (k, y) :: Memory.write m a x

/-! ### Register files and responses -/

/-- Eight words, each written (not ⊥). -/
def someWords (x : Vector Word 8) : Vector (Option Word) 8 :=
  #v[some x[0], some x[1], some x[2], some x[3], some x[4], some x[5], some x[6], some x[7]]

/-- `H[i] <- x[i]` for i = 0..7. -/
def setH (x : Vector Word 8) (s : State) : State := { s with h := someWords x }

/-- `V[i] <- x[i]` for i = 0..7. -/
def setV (x : Vector Word 8) (s : State) : State := { s with v := someWords x }

/-- `W[T] <- x`. -/
def setW (x : Word) (s : State) : State := { s with w := s.w.set s.t.val (some x) }

/-- `B[N] <- x; N <- N + 1`: `MemWrite(N, 1, x)` with the base update of R160 and R213. -/
def storeByte (x : Byte) (s : State) : State := { s with b := s.b.write s.n.val x, n := s.n + 1 }

/-- `respond(e, d)` (R10, R106): the response is emitted and the presented word has been taken (R100). -/
def respond (e : Bool) (d : Word) (s : State) : State :=
  { s with rsp := s.rsp ++ [⟨e, d⟩], port := none }

/-- The cause as a number, zero-extended to 32 bits (R106, R241). -/
def Cause.code : Cause → Word
  | .none => 0
  | .illegalCmd => 1
  | .pushUnexpected => 2
  | .startWhileReceiving => 3
  | .readNoDigest => 4

/-! ### Taking a protocol fault, and the return from it -/

/-- The writes of fault entry (R246): PP, CP, T, N, Q, CAUSE and nothing else. -/
def enterFault (k : Cause) (s : State) : State :=
  { s with pp := .fault, cp := .cidle, t := 0, n := 0, q := 0, cause := k }

/-- `raise Fault(k)` (R246): fault entry and the response `err(k)`. -/
def takeFault (k : Cause) (s : State) : State := respond true k.code (enterFault k s)

/-- The engine's state becomes the reset state, every line of R55 (R217, R270); the cells become ⊥, so the free values
are new ones (log 2). The ports and the outside world are as they were. -/
def wipe (s : State) : State :=
  { s with
    v := Vector.replicate 8 none
    h := Vector.replicate 8 none
    w := Vector.replicate 64 none
    b := []
    pp := .idle
    cp := .cidle
    t := 0
    n := 0
    q := 0
    len := 0
    cnt := 0
    cause := .none
    epoch := s.epoch + 1 }

/-- The return from FAULT (R252): the reset state, answered ok(0) (R217). It restores nothing. -/
def returnFromFault (s : State) : State := respond false 0 (wipe s)

/-- The reset input (R270): the engine's state becomes the reset state, a presented or held word is discarded without a
response, responses already emitted stay emitted. -/
def resetInput (s : State) : State := { wipe s with port := none }

/-! ### The disposition of a command -/

/-- The disposition table (R211), row by row. -/
def disposition (c : CommandKind) (pp : PadPhase) (cp : CorePhase) (n : Fin 65) : Disposition :=
  match c, pp with
  | .always, _ => .accept
  | .start, .idle => .accept
  | .start, .recv => .fault .startWhileReceiving
  | .start, .pad80 => .hold
  | .start, .pad00 => .hold
  | .start, .padlen => .hold
  | .start, .done => .accept
  | .start, .fault => .reject
  | .push, .idle => .fault .pushUnexpected
  | .push, .recv => if cp = .cidle ∧ n.val < 64 then .accept else .hold
  | .push, .pad80 => .fault .pushUnexpected
  | .push, .pad00 => .fault .pushUnexpected
  | .push, .padlen => .fault .pushUnexpected
  | .push, .done => .fault .pushUnexpected
  | .push, .fault => .reject
  | .read, .idle => .fault .readNoDigest
  | .read, .recv => .fault .readNoDigest
  | .read, .pad80 => .hold
  | .read, .pad00 => .hold
  | .read, .padlen => .hold
  | .read, .done => .accept
  | .read, .fault => .reject
  | .illegal, .idle => .fault .illegalCmd
  | .illegal, .recv => .fault .illegalCmd
  | .illegal, .pad80 => .fault .illegalCmd
  | .illegal, .pad00 => .fault .illegalCmd
  | .illegal, .padlen => .fault .illegalCmd
  | .illegal, .done => .fault .illegalCmd
  | .illegal, .fault => .reject

/-- How a command is executed (R218): held, rejected with the recorded cause (R247), faulted, or accepted and then
performed by `accepted`, which ends in a response. -/
def processCommand (c : CommandKind) (accepted : State → Result) (s : State) : Result :=
  match disposition c s.pp s.cp s.n with
  | .hold => .next s
  | .reject => .next (respond true s.cause.code s)
  | .fault k => .next (takeFault k s)
  | .accept => accepted s

/-- Appending one byte to the block (R160, R213): the buffer has indices 0..63 (R49), and `after` says what the rule
does besides, in the state with the new N. -/
def appendByte (x : Byte) (after : State → State) (s : State) : Result :=
  if s.n.val < 64 then .next (after (storeByte x s)) else .fault .bufferIndex

end Sys2Proof.Machine
end

