-- ==== Sys2Proof/Machine/Operands.lean ====
section
/-! DEFINITION. The operand forms: reading the cells of the register files H, V, W and of the block buffer B, alone,
as eight words, as a big-endian word (`MemRead(4T, 4)`, spec/20_memory.md R71) and as a digest byte (R73). A cell that
holds ⊥ reads as a free value: no reachable state reads one (R52 item 12; log 1). -/

namespace Sys2Proof.Machine

/-- `H[i]`. -/
def readH (s : State) (i : Fin 8) : Word := (s.h[i]).getD (Config.unwrittenH s.epoch i.val)

/-- `V[i]`. -/
def readV (s : State) (i : Fin 8) : Word := (s.v[i]).getD (Config.unwrittenV s.epoch i.val)

/-- `W[t]`. -/
def readW (s : State) (t : Fin 64) : Word := (s.w[t]).getD (Config.unwrittenW s.epoch t.val)

/-- `B[a]`. -/
def readB (s : State) (a : Nat) : Byte := (s.b.read a).getD (Config.unwrittenB s.epoch a)

/-- The hash state, all eight words (R33). -/
def hashWords (s : State) : Vector Word 8 :=
  #v[readH s 0, readH s 1, readH s 2, readH s 3, readH s 4, readH s 5, readH s 6, readH s 7]

/-- The working variables a..h, all eight (R31). -/
def workingWords (s : State) : Vector Word 8 :=
  #v[readV s 0, readV s 1, readV s 2, readV s 3, readV s 4, readV s 5, readV s 6, readV s 7]

/-- `MemRead(a, 4)` (R10, R71): the four bytes from index a, the first the most significant. -/
def memRead4 (s : State) (a : Nat) : Word :=
  wordOfBytes (readB s a) (readB s (a + 1)) (readB s (a + 2)) (readB s (a + 3))

/-- `W[T - d]`, the schedule operands of `EXP` (R181); `T - d` is not below 0 where `EXP` is performed. -/
def readWBack (s : State) (d : Nat) : Word :=
  readW s ⟨s.t.val - d, Nat.lt_of_le_of_lt (Nat.sub_le s.t.val d) s.t.isLt⟩

/-- `DIGEST[j]` (R73), the byte view of the hash state. -/
def digestByte (s : State) (j : BitVec 5) : Byte :=
  wordByte (readH s ⟨j.toNat / 4, Nat.div_lt_of_lt_mul j.isLt⟩) (j.toNat % 4)

end Sys2Proof.Machine
end

