-- ==== Sys2Proof/Machine/Commands.lean ====
section
/-! DEFINITION. The host commands (spec/44_host_commands.md): NOP, START, PUSHB, RDB, RDW, RDS, ABORT, and an illegal
word. Each is processed in the order of R218 with its row of the disposition table (R211). A meaning is that of the
command when its word stands at the command port (log 15). -/

namespace Sys2Proof.Machine

/-- `NOP` (R212): answered ok(0) in every phase. -/
def execNop (s : State) : Result := processCommand .always (fun s => .next (respond false 0 s)) s

/-- `START len`, accepted (R210): the hash state gets the initial values, the counters start, and with no byte to
come the engine pads at once. V, W, B are not cleared. -/
def startComputation (len : Word) (s : State) : State :=
  { setH initialHash s with
    len := len
    cnt := 0
    n := 0
    q := 0
    t := 0
    pp := if len = 0 then .pad80 else .recv }

/-- `START len` (R210). -/
def execStart (len : Word) (s : State) : Result :=
  processCommand .start (fun s => .next (respond false 0 (startComputation len s))) s

/-- `PUSHB byte`, accepted (R213), what it does besides appending the byte: CNT counts it, and the last message byte
starts the padding. -/
def countByte (s : State) : State :=
  { s with cnt := s.cnt + 1, pp := if s.cnt + 1 = s.len then .pad80 else s.pp }

/-- `PUSHB byte` (R213). -/
def execPushb (byte : Byte) (s : State) : Result :=
  processCommand .push (appendByte byte (fun s' => respond false 0 (countByte s'))) s

/-- `RDB j` (R214): the digest byte, zero-extended. -/
def execRdb (j : BitVec 5) (s : State) : Result :=
  processCommand .read (fun s => .next (respond false ((digestByte s j).setWidth 32) s)) s

/-- `RDW i` (R215): the hash word, as a number. -/
def execRdw (i : BitVec 3) (s : State) : Result :=
  processCommand .read (fun s => .next (respond false (readH s ⟨i.toNat, i.isLt⟩) s)) s

/-- `RDS` (R216): STATUS of the state at this step. -/
def execRds (s : State) : Result := processCommand .always (fun s => .next (respond false (status s) s)) s

/-- `ABORT` (R217): the reset state, answered ok(0), in every phase. -/
def execAbort (s : State) : Result := processCommand .always (fun s => .next (returnFromFault s)) s

/-- An illegal word (R104, R245): cause 1 outside FAULT, rejected in FAULT; the table never accepts it. -/
def execIllegal (s : State) : Result := processCommand .illegal (fun s => .next s) s

end Sys2Proof.Machine
end

