-- ==== Sys2Proof/Machine/Compression.lean ====
section
/-! DEFINITION. The compression function's micro-operations (spec/43_compression.md): INITV, RND, FOLD. Every addition
wraps silently (R193). -/

namespace Sys2Proof.Machine

/-- `INITV` (R190): the working variables start as a copy of the hash state. -/
def execInitv (s : State) : Result := .next { setV (hashWords s) s with cp := .round, t := 0 }

/-- `RND` (R191): round T with K[T] and W[T]; after T = 63 the core folds. -/
def execRnd (s : State) : Result :=
  .next { setV (round (workingWords s) (roundK s.t.val) (readW s s.t)) s with
    cp := if s.t.val = 63 then .fold else s.cp
    t := if s.t.val = 63 then 0 else s.t + 1 }

/-- `FOLD` (R194): the working variables are added into the hash state and the block buffer is released; the last block
is the one whose length field is complete. -/
def execFold (s : State) : Result :=
  .next { setH (addWords (hashWords s) (workingWords s)) s with
    n := 0
    cp := .cidle
    pp := if s.pp = .padlen ∧ s.q.val = 8 then .done else s.pp }

end Sys2Proof.Machine
end

