-- ==== Sys2Proof/Machine/Padding.lean ====
section
/-! DEFINITION. The padding controller's micro-operations (spec/41_padding.md): P80, P00, PLEN, DISP. They raise no
protocol fault and produce no response (R160). -/

namespace Sys2Proof.Machine

/-- `P80` (R161): append 0x80; if that makes N = 56, PP goes to PADLEN with Q = 0, else to PAD00. -/
def execP80 (s : State) : Result :=
  appendByte 0x80 (fun s' => if s'.n.val = 56 then { s' with pp := .padlen, q := 0 } else { s' with pp := .pad00 }) s

/-- `P00` (R162): append 0x00; if that makes N = 56, PP goes to PADLEN with Q = 0. -/
def execP00 (s : State) : Result :=
  appendByte 0x00 (fun s' => if s'.n.val = 56 then { s' with pp := .padlen, q := 0 } else s') s

/-- `PLEN` (R163): append byte Q of the 64-bit bit length, most significant first; PP stays. -/
def execPlen (s : State) : Result :=
  if s.q.val < 8 then appendByte (lengthByte (bitLen s.len) s.q.val) (fun s' => { s' with q := s'.q + 1 }) s
  else .fault .lengthByte

/-- `DISP` (R164): the full block, which stays in B, goes to the compression core. -/
def execDisp (s : State) : Result := .next { s with cp := .load, t := 0 }

end Sys2Proof.Machine
end

