-- ==== Sys2Proof/Machine/Scheduler.lean ====
section
/-! DEFINITION. The message scheduler's micro-operations (spec/42_schedule.md): LDW, EXP. They write only W[T], T and CP
(R183). -/

namespace Sys2Proof.Machine

/-- `LDW` (R180): W[T] is the big-endian word at B[4T..4T+3]; after T = 15 the core expands. -/
def execLdw (s : State) : Result :=
  if s.t.val < 16 then
    .next { setW (memRead4 s (4 * s.t.val)) s with cp := if s.t.val = 15 then .expand else s.cp, t := s.t + 1 }
  else .fault .bufferIndex

/-- `EXP` (R181): W[T] = σ1(W[T-2]) + W[T-7] + σ0(W[T-15]) + W[T-16]; after T = 63 the core initialises. -/
def execExp (s : State) : Result :=
  if 16 ≤ s.t.val then
    .next { setW (expandWord (readWBack s 2) (readWBack s 7) (readWBack s 15) (readWBack s 16)) s with
      cp := if s.t.val = 63 then .init else s.cp
      t := if s.t.val = 63 then 0 else s.t + 1 }
  else .fault .scheduleIndex

end Sys2Proof.Machine
end

