-- ==== Sys2Proof/Syntax.lean ====
section
/-! DEFINITION. The instructions: the sixteen rows of spec/opcode_table.json, seven host commands
(spec/30_encoding.md R103) and nine micro-operations (R112). -/

namespace Sys2Proof

/-- One constructor per row of the opcode table. An operand's type is the operand's bits (R101, R102), so that an
operand with a reserved bit set cannot be written (R76, R104). The micro-operations take no operand (R160, R183,
R193). -/
inductive Instr where
  /-- `NOP` (R212), format Z. -/
  | nop
  /-- `START len` (R210), format L: `len` = arg[31:0], bytes. -/
  | start (len : BitVec 32)
  /-- `PUSHB byte` (R213), format B: `byte` = arg[7:0]. -/
  | pushb (byte : BitVec 8)
  /-- `RDB j` (R214), format J: `j` = arg[4:0], digest byte index. -/
  | rdb (j : BitVec 5)
  /-- `RDW i` (R215), format I: `i` = arg[2:0], hash word index. -/
  | rdw (i : BitVec 3)
  /-- `RDS` (R216), format Z. -/
  | rds
  /-- `ABORT` (R217), format Z. -/
  | abort
  /-- `LDW` (R180): load schedule word T from the block. -/
  | ldw
  /-- `EXP` (R181): expand schedule word T. -/
  | exp
  /-- `INITV` (R190): copy the hash state into the working variables. -/
  | initv
  /-- `RND` (R191): perform round T. -/
  | rnd
  /-- `FOLD` (R194): add the working variables into the hash state. -/
  | fold
  /-- `DISP` (R164): hand the full block to the compression core. -/
  | disp
  /-- `P80` (R161): append the 0x80 byte. -/
  | p80
  /-- `P00` (R162): append one 0x00 byte. -/
  | p00
  /-- `PLEN` (R163): append one byte of the bit length. -/
  | plen
deriving DecidableEq, Repr

/-- The micro-operations are the rows that are "never sent by the host" (opcode table, R111). -/
def Instr.isMicroOp : Instr → Bool
  | .nop => false
  | .start _ => false
  | .pushb _ => false
  | .rdb _ => false
  | .rdw _ => false
  | .rds => false
  | .abort => false
  | .ldw => true
  | .exp => true
  | .initv => true
  | .rnd => true
  | .fold => true
  | .disp => true
  | .p80 => true
  | .p00 => true
  | .plen => true

/-- The row's mnemonic in the opcode table. -/
def Instr.mnemonic : Instr → String
  | .nop => "NOP"
  | .start _ => "START"
  | .pushb _ => "PUSHB"
  | .rdb _ => "RDB"
  | .rdw _ => "RDW"
  | .rds => "RDS"
  | .abort => "ABORT"
  | .ldw => "LDW"
  | .exp => "EXP"
  | .initv => "INITV"
  | .rnd => "RND"
  | .fold => "FOLD"
  | .disp => "DISP"
  | .p80 => "P80"
  | .p00 => "P00"
  | .plen => "PLEN"

end Sys2Proof
end

