-- ==== Sys2Proof/Machine/Dispatch.lean ====
section
/-! DEFINITION. One arm per constructor of Instr, each one direct call of the instruction's meaning. -/

namespace Sys2Proof.Machine

/-- What an instruction does. -/
def exec (i : Instr) (s : State) : Host.Outcome State Fault Refusal :=
  match i with
  | .nop => Sys2Proof.Machine.execNop s
  | .start len => Sys2Proof.Machine.execStart len s
  | .pushb byte => Sys2Proof.Machine.execPushb byte s
  | .rdb j => Sys2Proof.Machine.execRdb j s
  | .rdw k => Sys2Proof.Machine.execRdw k s
  | .rds => Sys2Proof.Machine.execRds s
  | .abort => Sys2Proof.Machine.execAbort s
  | .ldw => Sys2Proof.Machine.execLdw s
  | .exp => Sys2Proof.Machine.execExp s
  | .initv => Sys2Proof.Machine.execInitv s
  | .rnd => Sys2Proof.Machine.execRnd s
  | .fold => Sys2Proof.Machine.execFold s
  | .disp => Sys2Proof.Machine.execDisp s
  | .p80 => Sys2Proof.Machine.execP80 s
  | .p00 => Sys2Proof.Machine.execP00 s
  | .plen => Sys2Proof.Machine.execPlen s

end Sys2Proof.Machine
end

