-- ==== Sys2Proof/Decode.lean ====
section
/-! DEFINITION. The decoder of host command words (spec/30_encoding.md R107), the micro-op selection by the select
word USEL (R112), both total and rejecting by name; the tables of R103 and R112 as lists of rows; and the encoder,
written from the same tables. Decoding reads no engine state (R107). -/

namespace Sys2Proof

/-- Why a word is no instruction. -/
inductive Rejection where
  /-- A command word whose `op` is in 0x07..0xFF (R104). -/
  | reservedOpcode
  /-- A command word whose `op` is in 0x00..0x06 with a reserved operand bit set (R104). -/
  | reservedOperandBits
  /-- A select word that matches no row of R112: no micro-op is enabled. -/
  | noMicroOp
deriving DecidableEq, Repr

/-- What decoding a word gives: one instruction with its operand, or a rejection by name. -/
inductive Decoded where
  | instr (i : Instr)
  | rejected (why : Rejection)
deriving DecidableEq, Repr

/-- The instruction read, if any. -/
def Decoded.toOption : Decoded → Option Instr
  | .instr i => some i
  | .rejected _ => none

/-- `op` = CW[39:32] (R101). -/
def opField (cw : CommandWord) : BitVec 8 := cw.extractLsb' 32 8

/-- `arg` = CW[31:0] (R101). -/
def argField (cw : CommandWord) : BitVec 32 := cw.extractLsb' 0 32

/-- The decoder's algorithm (R107), one case per opcode. Operands are the low bits of `arg`, used as they are (R102). -/
def decodeCommand (cw : CommandWord) : Decoded :=
  let arg := argField cw
  match (opField cw).toNat with
  | 0x00 => if arg = 0 then .instr .nop else .rejected .reservedOperandBits
  | 0x01 => .instr (.start arg)
  | 0x02 => if arg.extractLsb' 8 24 = 0 then .instr (.pushb (arg.extractLsb' 0 8)) else .rejected .reservedOperandBits
  | 0x03 => if arg.extractLsb' 5 27 = 0 then .instr (.rdb (arg.extractLsb' 0 5)) else .rejected .reservedOperandBits
  | 0x04 => if arg.extractLsb' 3 29 = 0 then .instr (.rdw (arg.extractLsb' 0 3)) else .rejected .reservedOperandBits
  | 0x05 => if arg = 0 then .instr .rds else .rejected .reservedOperandBits
  | 0x06 => if arg = 0 then .instr .abort else .rejected .reservedOperandBits
  | _ => .rejected .reservedOpcode

/-- A row of the command table (R103): a word is the row's command exactly when `(CW & mask) = pattern`. -/
structure CommandRow where
  mnemonic : String
  pattern : CommandWord
  mask : CommandWord
deriving DecidableEq, Repr

/-- The table of R103. -/
def commandTable : List CommandRow := [
  ⟨"NOP", 0x0000000000, 0xFFFFFFFFFF⟩,
  ⟨"START", 0x0100000000, 0xFF00000000⟩,
  ⟨"PUSHB", 0x0200000000, 0xFFFFFFFF00⟩,
  ⟨"RDB", 0x0300000000, 0xFFFFFFFFE0⟩,
  ⟨"RDW", 0x0400000000, 0xFFFFFFFFF8⟩,
  ⟨"RDS", 0x0500000000, 0xFFFFFFFFFF⟩,
  ⟨"ABORT", 0x0600000000, 0xFFFFFFFFFF⟩]

/-- A row of the micro-op selection table (R112): the row matches when `(USEL & mask) = pattern`. -/
structure SelectRow where
  op : Instr
  pattern : SelectWord
  mask : SelectWord
deriving DecidableEq, Repr

/-- The table of R112. -/
def selectTable : List SelectRow := [
  ⟨.ldw, 0b0010000, 0b1110000⟩,
  ⟨.exp, 0b0100000, 0b1110000⟩,
  ⟨.initv, 0b0110000, 0b1110000⟩,
  ⟨.rnd, 0b1000000, 0b1110000⟩,
  ⟨.fold, 0b1010000, 0b1110000⟩,
  ⟨.disp, 0b0001000, 0b1111000⟩,
  ⟨.p80, 0b0000010, 0b1111111⟩,
  ⟨.p00, 0b0000011, 0b1111111⟩,
  ⟨.plen, 0b0000100, 0b1111111⟩]

/-- Micro-op selection: the row that matches the select word, if one does (R112). -/
def selectMicroOp (u : SelectWord) : Decoded :=
  match selectTable.find? (fun r => u &&& r.mask == r.pattern) with
  | some r => .instr r.op
  | none => .rejected .noMicroOp

/-- The two spaces an instruction is encoded in (opcode table): a 40-bit command word, or a 7-bit select word. -/
inductive Encoded where
  | command (cw : CommandWord)
  | select (u : SelectWord)
deriving DecidableEq, Repr

/-- Decoding in either space. -/
def decode : Encoded → Decoded
  | .command cw => decodeCommand cw
  | .select u => selectMicroOp u

/-- The words of an instruction, from the tables of R101, R103 and R112. A micro-op's word is its row's pattern, the
bits its row does not test being 0 (DESIGN CHOICE, safe: log 14). -/
def encode : Instr → Encoded
  | .nop => .command (0x00#8 ++ 0#32)
  | .start len => .command (0x01#8 ++ len)
  | .pushb byte => .command (0x02#8 ++ (0#24 ++ byte))
  | .rdb j => .command (0x03#8 ++ (0#27 ++ j))
  | .rdw i => .command (0x04#8 ++ (0#29 ++ i))
  | .rds => .command (0x05#8 ++ 0#32)
  | .abort => .command (0x06#8 ++ 0#32)
  | .ldw => .select 0b0010000
  | .exp => .select 0b0100000
  | .initv => .select 0b0110000
  | .rnd => .select 0b1000000
  | .fold => .select 0b1010000
  | .disp => .select 0b0001000
  | .p80 => .select 0b0000010
  | .p00 => .select 0b0000011
  | .plen => .select 0b0000100

/-- The five bytes of a command word on a byte transport: the opcode byte first (R75). The order of the four bytes of
`arg` after it, most significant first, is the model's choice (DESIGN CHOICE, log 19): R75 does not give it. -/
def bytesOfCommand (cw : CommandWord) : List Byte :=
  [cw.extractLsb' 32 8, cw.extractLsb' 24 8, cw.extractLsb' 16 8, cw.extractLsb' 8 8, cw.extractLsb' 0 8]

/-- The command word at the head of a byte transport, with the bytes after it; none while fewer than five bytes have
come (R75, R108: all command words are 40 bits). The four bytes after the opcode are `arg`, most significant first, as
in `bytesOfCommand` (DESIGN CHOICE, log 19). -/
def commandOfBytes : List Byte → Option (CommandWord × List Byte)
  | b4 :: b3 :: b2 :: b1 :: b0 :: rest => some (b4 ++ (b3 ++ (b2 ++ (b1 ++ b0))), rest)
  | _ => none

/-- Decoding any bytes: the instruction (or the rejection by name) of each complete command word, in order; bytes of
an incomplete word at the end are not yet a word. `fuel` bounds the number of words. The bytes of a word are ordered as
`commandOfBytes` has them (log 19). -/
def decodeBytes : Nat → List Byte → List Decoded
  | 0, _ => []
  | fuel + 1, bytes =>
    match commandOfBytes bytes with
    | some (cw, rest) => decodeCommand cw :: decodeBytes fuel rest
    | none => []

/-- The instruction the decoder reads from an instruction whose bits are `w`, numbered as the opcode table numbers
them: a command row has 40 bits, a micro-op row has 7 (8 in whole bytes). -/
def decodeTableWord (nbits w : Nat) : Option Instr :=
  if nbits = 40 then
    if w < 2 ^ 40 then (decodeCommand (BitVec.ofNat 40 w)).toOption else none
  else if nbits = 7 ∨ nbits = 8 then
    if w < 2 ^ 7 then (selectMicroOp (BitVec.ofNat 7 w)).toOption else none
  else none

end Sys2Proof
end

