-- ==== Sys2Proof/Machine/Sequencer.lean ====
section
/-! DEFINITION. What the next step performs: whose turn it is (spec/00_scope.md R7, spec/30_encoding.md R113), which
micro-op is enabled (R112), which command stands at the port (R218), and the host's moves (R100). -/

namespace Sys2Proof.Machine

/-- The values of USEL that R112 lists as unreachable and that are writable here: CP not CIDLE with NFULL = 0, or with
PP in IDLE, DONE, FAULT. "A model should give them no step" (log 7). -/
def unreachableSelect (s : State) : Bool := s.cp != .cidle && (!nfull s || !s.pp.busy)

/-- The enabled micro-op: the row of R112 that the select word matches. -/
def enabled (s : State) : Option Instr :=
  if unreachableSelect s then none else (selectMicroOp (selectWord s)).toOption

/-- No micro-op is enabled (R13, R112). -/
def quiescent (s : State) : Bool := (enabled s).isNone

/-- The row of the disposition table a decoded command word belongs to (R211). A micro-op is no command word. -/
def commandKind : Decoded → CommandKind
  | .instr .nop => .always
  | .instr (.start _) => .start
  | .instr (.pushb _) => .push
  | .instr (.rdb _) => .read
  | .instr (.rdw _) => .read
  | .instr .rds => .always
  | .instr .abort => .always
  | .instr .ldw => .illegal
  | .instr .exp => .illegal
  | .instr .initv => .illegal
  | .instr .rnd => .illegal
  | .instr .fold => .illegal
  | .instr .disp => .illegal
  | .instr .p80 => .illegal
  | .instr .p00 => .illegal
  | .instr .plen => .illegal
  | .rejected _ => .illegal

/-- `cmd_valid` (R100): the host presents a command word. -/
def cmdValid (s : State) : Bool := s.port.isSome

/-- `cmd_ready` (R100): the engine would take the presented word now; low while the word is held (R211). -/
def cmdReady (s : State) : Bool :=
  match s.port with
  | some cw => disposition (commandKind (decodeCommand cw)) s.pp s.cp s.n != .hold
  | none => false

/-- Whose turn it is when the given interleaving is used up: the engine's while a micro-op is enabled, so that every
enabled micro-op is eventually performed (R113); then the presented command's; then the host's (DESIGN CHOICE, log 3). -/
def fairTurn (s : State) : Turn :=
  if (enabled s).isSome then .engine
  else if s.port.isSome then .command
  else if s.host.isEmpty then .engine
  else .present

/-- Whose turn the next step is. -/
def nextTurn (s : State) : Turn :=
  match s.sched with
  | turn :: _ => turn
  | [] => fairTurn s

/-- What a step performs. -/
inductive Action where
  /-- An instruction: the enabled micro-op or the presented command. -/
  | run (i : Instr)
  /-- The presented word is illegal (R104). -/
  | illegal
  /-- The host presents its next word. -/
  | present
  /-- The reset input is asserted. -/
  | reset
  /-- Nothing: no micro-op is enabled, or no word is presented. -/
  | idle
deriving DecidableEq, Repr

/-- What the agent whose turn it is performs. -/
def fetch (turn : Turn) (s : State) : Action :=
  match turn with
  | .engine =>
    match enabled s with
    | some i => .run i
    | none => .idle
  | .command =>
    match s.port with
    | some cw =>
      match decodeCommand cw with
      | .instr i => .run i
      | .rejected _ => .illegal
    | none => .idle
  | .present => .present
  | .rst => .reset

/-- The host presents its next command word when the port is free; a presented word is never changed (R100, R220). -/
def presentNext (s : State) : State :=
  match s.port, s.host with
  | none, cw :: rest => { s with port := some cw, host := rest }
  | none, [] => s
  | some _, _ => s

/-- The turn that this step is, used up. -/
def consumeTurn (s : State) : State := { s with sched := s.sched.tail }

/-! ### Placing an instruction where the next step fetches it (log 12) -/

/-- The PP field of a select word when it is a phase in which a computation is in progress. -/
def busyPhaseOf (u : SelectWord) : PadPhase :=
  match (u.extractLsb' 0 3).toNat with
  | 1 => .recv
  | 2 => .pad80
  | 3 => .pad00
  | 4 => .padlen
  | _ => .pad80

/-- The sequencer standing where the core's micro-op of phase `cp` is enabled, on a full block, with index `t`. -/
def placeCore (cp : CorePhase) (t : Fin 64) (u : SelectWord) (s : State) : State :=
  { s with cp := cp, n := 64, pp := busyPhaseOf u, t := t }

/-- The sequencer standing where the padding controller's micro-op of phase `pp` is enabled, with room in the block. -/
def placePad (pp : PadPhase) (s : State) : State :=
  { s with cp := .cidle, pp := pp, n := if s.n.val < 64 then s.n else 0 }

/-- The sequencer standing where the micro-op is enabled that the select word selects, each index in that micro-op's
range. The bits of the word that its row does not test are kept where R112 calls them reachable. -/
def placeSelect (u : SelectWord) (s : State) : State :=
  match selectMicroOp u with
  | .instr .ldw => placeCore .load (if s.t.val < 16 then s.t else 0) u s
  | .instr .exp => placeCore .expand (if 16 ≤ s.t.val then s.t else 16) u s
  | .instr .initv => placeCore .init s.t u s
  | .instr .rnd => placeCore .round s.t u s
  | .instr .fold => placeCore .fold s.t u s
  | .instr .disp => placeCore .cidle s.t u s
  | .instr .p80 => placePad .pad80 s
  | .instr .p00 => placePad .pad00 s
  | .instr .plen => { placePad .padlen s with q := if s.q.val < 8 then s.q else 0 }
  | .instr .nop => s
  | .instr (.start _) => s
  | .instr (.pushb _) => s
  | .instr (.rdb _) => s
  | .instr (.rdw _) => s
  | .instr .rds => s
  | .instr .abort => s
  | .rejected _ => s

end Sys2Proof.Machine
end

