-- ==== Sys2Proof/Machine/Step.lean ====
section
/-! DEFINITION. One step of the machine: the next agent's turn (spec/00_scope.md R7, spec/20_memory.md R81). -/

namespace Sys2Proof.Machine

/-- What an action does to the state. -/
def perform (a : Action) (s : State) : Host.Outcome State Fault Refusal :=
  match a with
  | .run i => exec i s
  | .illegal => execIllegal s
  | .present => .next (presentNext s)
  | .reset => .next (resetInput s)
  | .idle => .next s

/-- One step: whose turn it is, what that agent performs, performed (each step atomic, R10, R77). -/
def step (s : State) : Host.Outcome State Fault Refusal :=
  perform (fetch (nextTurn s) s) (consumeTurn s)

/-- The state with an instruction's word where the next step fetches it: a 40-bit command word stands at the command
port and it is the command's turn; a 7-bit select word is the sequencer's position and it is the engine's turn (log
12). -/
def State.withFetchWord (s : State) (nbits w : Nat) : State :=
  if nbits = 40 then { s with port := some (BitVec.ofNat 40 w), sched := .command :: s.sched }
  else { placeSelect (BitVec.ofNat 7 w) s with sched := .engine :: s.sched }

end Sys2Proof.Machine
end

