-- ==== Sys2Proof/Safety.lean ====
section
/-! DEFINITION. The terms in which claims about the machine are stated: the invariant of the reachable states
(spec/10_state.md R52), the legal phase changes (R38), a computation in progress over a message and its result
(spec/41_padding.md R165, spec/43_compression.md R195, spec/44_host_commands.md R221, R224), what two runs share that
differ only in message bytes (spec/70_reset_and_hazards.md R283). -/

namespace Sys2Proof.Machine

/-- The next k steps, from any state. -/
def run (k : Nat) (s : State) : Result := Sys2Proof.core.run k s

/-- The twelve items of R52; item 1 holds by the types of `pp` and `cp`. -/
structure Rule52 (s : State) : Prop where
  item2 : s.cp ≠ .cidle → s.pp.busy = true ∧ s.n.val = 64
  item3 : s.n.val = 64 → s.pp.busy = true
  item4 : s.pp = .recv → 0 < s.len.toNat ∧ s.cnt.toNat < s.len.toNat ∧
    (s.n.val < 64 → s.n.val = s.cnt.toNat % 64) ∧ (s.n.val = 64 → s.cnt.toNat % 64 = 0 ∧ 0 < s.cnt.toNat)
  item5 : s.pp = .pad80 ∨ s.pp = .pad00 ∨ s.pp = .padlen ∨ s.pp = .done → s.cnt = s.len
  item6 : s.pp = .pad80 → s.n.val < 64 → s.n.val = s.len.toNat % 64
  item7 : s.pp = .pad00 → s.n.val ≠ 56
  item8 : s.pp = .padlen → s.n.val = 56 + s.q.val
  item9 : s.pp.busy = false → s.cp = .cidle ∧ s.n.val = 0
  item10 : s.cause = .none ↔ s.pp ≠ .fault
  item11 : (s.cp = .load → s.t.val < 16) ∧ (s.cp = .expand → 16 ≤ s.t.val) ∧
    (s.cp = .init ∨ s.cp = .fold ∨ s.cp = .cidle → s.t.val = 0)
  item12h : s.pp.busy = true ∨ s.pp = .done → ∀ i : Fin 8, s.h[i] ≠ none
  item12b : s.pp.busy = true → ∀ a, a < s.n.val → s.b.read a ≠ none
  item12w : s.cp = .load ∨ s.cp = .expand → ∀ i : Fin 64, i.val < s.t.val → s.w[i] ≠ none
  item12full : s.cp = .init ∨ s.cp = .round ∨ s.cp = .fold → ∀ i : Fin 64, s.w[i] ≠ none
  item12v : s.cp = .round ∨ s.cp = .fold → ∀ i : Fin 8, s.v[i] ≠ none

/-- R52 made inductive: what R52 leaves unsaid of PAD80 with a full block, which `FOLD` turns into item 6 (DEDUCED,
log 13), and the block buffer's canonical form (log 10). -/
structure Inv (s : State) : Prop where
  rule52 : Rule52 s
  pad80Full : s.pp = .pad80 → s.n.val = 64 → s.len.toNat % 64 = 0
  bufferWf : s.b.wf

/-- The legal transitions of PP (R38), a phase that stays included. -/
def legalPhaseChange (p p' : PadPhase) : Bool :=
  p == p' || p' == .idle || (p != .fault && p' == .fault) ||
  (p, p') ∈ [(.idle, .recv), (.idle, .pad80), (.recv, .pad80), (.pad80, .pad00), (.pad80, .padlen), (.pad00, .padlen),
    (.padlen, .done), (.done, .recv), (.done, .pad80)]

/-- Every line of the table of R55 that is state of the engine. -/
structure EngineReset (s : State) : Prop where
  pp : s.pp = .idle
  cp : s.cp = .cidle
  t : s.t.val = 0
  n : s.n.val = 0
  q : s.q.val = 0
  len : s.len = 0
  cnt : s.cnt = 0
  cause : s.cause = .none
  h : ∀ i : Fin 8, s.h[i] = none
  v : ∀ i : Fin 8, s.v[i] = none
  w : ∀ i : Fin 64, s.w[i] = none
  b : ∀ a : Nat, s.b.read a = none

/-- It is the command's turn, and the word at the port decodes to this (R81 (2), R107). -/
def CommandTurn (s : State) (d : Decoded) : Prop := nextTurn s = .command ∧ s.port.map decodeCommand = some d

/-- This step is the reset input or an `ABORT`: the two events that return the engine to the reset state (R252). -/
def WipeTurn (s : State) : Prop := nextTurn s = .rst ∨ CommandTurn s (.instr .abort)

/-- The tuple of R30 is the same in two states. -/
structure SameEngine (s s' : State) : Prop where
  v : s'.v = s.v
  h : s'.h = s.h
  w : s'.w = s.w
  b : s'.b = s.b
  pp : s'.pp = s.pp
  cp : s'.cp = s.cp
  t : s'.t = s.t
  n : s'.n = s.n
  q : s'.q = s.q
  len : s'.len = s.len
  cnt : s'.cnt = s.cnt
  cause : s'.cause = s.cause

/-! ### A computation over a message -/

/-- How far the core is with block k of message m, in terms of the functional layer (R182, R195). -/
def CoreProgress (m : List Byte) (k : Nat) (s : State) : Prop :=
  match s.cp with
  | .cidle => True
  | .load => s.n.val = 64 ∧ s.t.val < 16 ∧
      ∀ i : Fin 64, i.val < s.t.val → s.w[i] = some ((schedule (block m k)).getD i.val 0)
  | .expand => s.n.val = 64 ∧ 16 ≤ s.t.val ∧
      ∀ i : Fin 64, i.val < s.t.val → s.w[i] = some ((schedule (block m k)).getD i.val 0)
  | .init => s.n.val = 64 ∧ s.t.val = 0 ∧ ∀ i : Fin 64, s.w[i] = some ((schedule (block m k)).getD i.val 0)
  | .round => s.n.val = 64 ∧ (∀ i : Fin 64, s.w[i] = some ((schedule (block m k)).getD i.val 0)) ∧
      s.v = someWords (roundsUpTo (hashAfter m k) (schedule (block m k)) s.t.val)
  | .fold => s.n.val = 64 ∧ s.t.val = 0 ∧
      s.v = someWords (roundsUpTo (hashAfter m k) (schedule (block m k)) 64)

/-- Where the padding controller is in `pad(m)` after k blocks have been folded: `64k + N` bytes of it have been
appended (R165). -/
def PadProgress (m : List Byte) (k : Nat) (s : State) : Prop :=
  match s.pp with
  | .idle => False
  | .recv => s.cnt.toNat = 64 * k + s.n.val ∧ s.cnt.toNat < m.length
  | .pad80 => m.length = 64 * k + s.n.val
  | .pad00 => m.length + 1 ≤ 64 * k + s.n.val ∧ 64 * k + s.n.val < m.length + 1 + zeroCount m.length
  | .padlen => 64 * k + s.n.val = m.length + 1 + zeroCount m.length + s.q.val ∧ s.n.val = 56 + s.q.val
  | .done => k = blockCount m.length ∧ s.n.val = 0 ∧ s.cp = .cidle
  | .fault => False

/-- The engine is computing `compute(m)` and has folded k blocks: every register holds what the functional layer says
(R165, R182, R195, R224). -/
structure Computing (m : List Byte) (k : Nat) (s : State) : Prop where
  len : s.len.toNat = m.length
  place : PadProgress m k s
  buffer : ∀ a, a < s.n.val → s.b.read a = some ((pad m).getD (64 * k + a) 0)
  hash : s.h = someWords (hashAfter m k)
  core : CoreProgress m k s

/-- The message bytes the host still has to supply. -/
def missing (m : List Byte) (s : State) : List Byte :=
  match s.pp with
  | .recv => m.drop s.cnt.toNat
  | .idle => []
  | .pad80 => []
  | .pad00 => []
  | .padlen => []
  | .done => []
  | .fault => []

/-- What may follow in a well-formed computation (R221) when these message bytes are still to come: `PUSHB`s with
exactly these bytes, `NOP` and `RDS` anywhere, `RDB` and `RDW` after the last byte. -/
def continues : List Byte → List CommandWord → Bool
  | more, [] => more.isEmpty
  | more, cw :: rest =>
    match decodeCommand cw with
    | .instr .nop => continues more rest
    | .instr .rds => continues more rest
    | .instr (.pushb x) =>
      match more with
      | y :: more' => x == y && continues more' rest
      | [] => false
    | .instr (.rdb _) => more.isEmpty && continues [] rest
    | .instr (.rdw _) => more.isEmpty && continues [] rest
    | _ => false

/-- The commands not yet taken: the presented word, then what the host has yet to present. -/
def pending (s : State) : List CommandWord := s.port.toList ++ s.host

/-- The answer R224 gives a command of a well-formed computation over m; only the data of `RDS` is not fixed. -/
def Answered (m : List Byte) (cw : CommandWord) (r : Response) : Prop :=
  r.err = false ∧
  match decodeCommand cw with
  | .instr .rds => True
  | .instr (.rdb j) => r.data = ((compute m).getD j.toNat 0).setWidth 32
  | .instr (.rdw i) => r.data = (hashAfter m (blockCount m.length))[i.toNat]'(i.isLt)
  | _ => r.data = 0

/-- This step performs a micro-op. -/
def isMicroStep (s : State) : Bool :=
  match fetch (nextTurn s) s with
  | .run i => i.isMicroOp
  | _ => false

/-- How many of the next k steps perform a micro-op. -/
def microSteps : Nat → State → Nat
  | 0, _ => 0
  | k + 1, s =>
    (if isMicroStep s then 1 else 0) +
    match step s with
    | .next t => microSteps k t
    | .fault _ => 0
    | .refused _ => 0

/-! ### Two runs that differ only in message bytes (R283) -/

/-- A command word with the message byte of a `PUSHB` erased. -/
def eraseByte (cw : CommandWord) : CommandWord := if opField cw = 0x02 then cw &&& 0xFFFFFFFF00 else cw

/-- Two states that agree on everything but message bytes and what is computed from them: the sequencer, the counters,
the cause, the turns to come, and the command words but for the bytes pushed. -/
structure SameControl (s s' : State) : Prop where
  pp : s'.pp = s.pp
  cp : s'.cp = s.cp
  t : s'.t = s.t
  n : s'.n = s.n
  q : s'.q = s.q
  len : s'.len = s.len
  cnt : s'.cnt = s.cnt
  cause : s'.cause = s.cause
  sched : s'.sched = s.sched
  port : s'.port.map eraseByte = s.port.map eraseByte
  host : s'.host.map eraseByte = s.host.map eraseByte

end Sys2Proof.Machine
end

