-- ==== Sys2Proof/Machine/Assembler.lean ====
section
/-! DEFINITION. The assembler syntax of spec/30_encoding.md R109 and the pseudo-commands of R110: source lines with plain
numbers as operands, and the command words they stand for. -/

namespace Sys2Proof.Machine

/-- A line of a host program (R109, R110). Operands are numbers as written; a line outside its ranges has no words. -/
inductive AsmLine where
  | nop
  | start (len : Nat)
  | pushb (byte : Nat)
  | rdb (j : Nat)
  | rdw (i : Nat)
  | rds
  | abort
  /-- `.cw 0x<10 hex digits>`: a raw word, legal or not (R109). -/
  | cw (word : Nat)
  /-- `PUSHS "text"`. -/
  | pushs (text : List Char)
  /-- `PUSHX hh hh ...`. -/
  | pushx (bytes : List Nat)
  /-- `PUSHN <byte>, <count>`. -/
  | pushn (byte count : Nat)
  | digest
  | digestw
  /-- `HASH "text"`. -/
  | hash (text : List Char)
deriving DecidableEq, Repr

/-- Printable ASCII (R110): 0x20 to 0x7E (DEDUCED, log 16). -/
def printable (c : Char) : Bool := decide (0x20 ≤ c.toNat) && decide (c.toNat ≤ 0x7E)

/-- The ranges of R109 and R110: "an operand outside the range shown cannot be assembled". -/
def AsmLine.inRange : AsmLine → Bool
  | .nop => true
  | .start len => decide (len < 2 ^ 32)
  | .pushb byte => decide (byte < 2 ^ 8)
  | .rdb j => decide (j < 2 ^ 5)
  | .rdw i => decide (i < 2 ^ 3)
  | .rds => true
  | .abort => true
  | .cw word => decide (word < 2 ^ 40)
  | .pushs text => text.all printable
  | .pushx bytes => bytes.all fun x => decide (x < 2 ^ 8)
  | .pushn byte _ => decide (byte < 2 ^ 8)
  | .digest => true
  | .digestw => true
  | .hash text => text.all printable && decide (text.length < 2 ^ 32)

/-- The word of a command. -/
def commandWord (i : Instr) : List CommandWord :=
  match encode i with
  | .command cw => [cw]
  | .select _ => []

/-- One `PUSHB` word for a byte value. -/
def pushWord (x : Nat) : List CommandWord := commandWord (.pushb (BitVec.ofNat 8 x))

/-- `PUSHS`: one `PUSHB` per character, its ASCII code (R110). -/
def pushsWords (text : List Char) : List CommandWord := text.flatMap fun c => pushWord c.toNat

/-- `DIGEST`: `RDB 0` to `RDB 31` (R110). -/
def digestWords : List CommandWord := (List.range 32).flatMap fun j => commandWord (.rdb (BitVec.ofNat 5 j))

/-- `DIGESTW`: `RDW 0` to `RDW 7` (R110). -/
def digestwWords : List CommandWord := (List.range 8).flatMap fun i => commandWord (.rdw (BitVec.ofNat 3 i))

/-- The words a line stands for (R109, R110), operands in range. -/
def AsmLine.words : AsmLine → List CommandWord
  | .nop => commandWord .nop
  | .start len => commandWord (.start (BitVec.ofNat 32 len))
  | .pushb byte => pushWord byte
  | .rdb j => commandWord (.rdb (BitVec.ofNat 5 j))
  | .rdw i => commandWord (.rdw (BitVec.ofNat 3 i))
  | .rds => commandWord .rds
  | .abort => commandWord .abort
  | .cw word => [BitVec.ofNat 40 word]
  | .pushs text => pushsWords text
  | .pushx bytes => bytes.flatMap pushWord
  | .pushn byte count => (List.replicate count byte).flatMap pushWord
  | .digest => digestWords
  | .digestw => digestwWords
  | .hash text => commandWord (.start (BitVec.ofNat 32 text.length)) ++ pushsWords text ++ digestWords

/-- A host program's command words, in order; none if a line cannot be assembled. -/
def assemble : List AsmLine → Option (List CommandWord)
  | [] => some []
  | l :: ls => if l.inRange then (assemble ls).map (l.words ++ ·) else none

end Sys2Proof.Machine
end

