-- ==== Sys2Proof/WellFormed.lean ====
section
/-! DEFINITION. Which instructions and which source lines are well formed: every operand in the range its format gives it
(spec/30_encoding.md R101, R102, R109, R110). -/

namespace Sys2Proof

/-- An instruction's operand fits its format (R101). The operand types of `Instr` already say so; the check is written
out from the table of R101 all the same. -/
def Instr.fits : Instr → Bool
  | .nop => true
  | .start len => decide (len.toNat < 2 ^ 32)
  | .pushb byte => decide (byte.toNat < 2 ^ 8)
  | .rdb j => decide (j.toNat < 2 ^ 5)
  | .rdw i => decide (i.toNat < 2 ^ 3)
  | .rds => true
  | .abort => true
  | .ldw => true
  | .exp => true
  | .initv => true
  | .rnd => true
  | .fold => true
  | .disp => true
  | .p80 => true
  | .p00 => true
  | .plen => true

/-- A well-formed instruction. -/
abbrev Instr.WellFormed (i : Instr) : Prop := i.fits = true

/-- A source line that can be assembled (R109): every operand in its range, a text printable ASCII. -/
abbrev Machine.AsmLine.WellFormed (l : Machine.AsmLine) : Prop := l.inRange = true

end Sys2Proof
end

