-- ==== Sys2Proof/Certificates/Slice0/Obligations.lean ====
section
/-! DEFINITION. The statements for the provers, one per rule or group of rules of spec/. In an equation
`exec i s = .next { s with … }` the fields listed are all that changes: it is the result, the completion and the frame of
the instruction in one. -/

section
open Sys2Proof Sys2Proof.Machine

/-! ### Encoding -/

/-- R103, R104, R112: words written out from the encoding tables decode to what they stand for. -/
def Obligations.DecodedExampleWords : Prop :=
  decodeCommand 0x0000000000 = .instr .nop ∧
  decodeCommand 0x0100000003 = .instr (.start 3) ∧
  decodeCommand 0x01FFFFFFFF = .instr (.start 0xFFFFFFFF) ∧
  decodeCommand 0x0200000061 = .instr (.pushb 0x61) ∧
  decodeCommand 0x030000001F = .instr (.rdb 31) ∧
  decodeCommand 0x0400000007 = .instr (.rdw 7) ∧
  decodeCommand 0x0500000000 = .instr .rds ∧
  decodeCommand 0x0600000000 = .instr .abort ∧
  decodeCommand 0x0200000100 = .rejected .reservedOperandBits ∧
  decodeCommand 0x0700000000 = .rejected .reservedOpcode ∧
  selectMicroOp 0b0011011 = .instr .ldw ∧
  selectMicroOp 0b1001010 = .instr .rnd ∧
  selectMicroOp 0b0001100 = .instr .disp ∧
  selectMicroOp 0b0000100 = .instr .plen ∧
  selectMicroOp 0b0000101 = .rejected .noMicroOp

/-- R101, R103, R112: decoding the encoding of a well-formed instruction gives it back, every operand at every value. -/
def Obligations.DecodeOfEncode : Prop :=
  ∀ i : Instr, i.WellFormed → decode (encode i) = .instr i

/-- The other direction: a command word that decodes to an instruction is that instruction's encoding, so no two words
stand for the same command (R101, R103). -/
def Obligations.EncodeOfDecode : Prop :=
  ∀ (cw : CommandWord) (i : Instr), decodeCommand cw = .instr i → encode i = .command cw

/-- R103: a word is the named command exactly when it matches the row, and at most one row matches. -/
def Obligations.DecoderFollowsTable : Prop :=
  (∀ cw : CommandWord, (decodeCommand cw).toOption.map Instr.mnemonic =
    (commandTable.find? fun r => cw &&& r.mask == r.pattern).map CommandRow.mnemonic) ∧
  commandTable.Pairwise fun r r' => ∀ cw : CommandWord, cw &&& r.mask = r.pattern → cw &&& r'.mask ≠ r'.pattern

/-- R102, R104: by the numbers `op` and `arg` of the word, which words are illegal, and that an operand is the unsigned
number formed by its bits of `arg`, used as it is. -/
def Obligations.IllegalWordsAndOperands : Prop :=
  ∀ cw : CommandWord,
    ((∃ why, decodeCommand cw = .rejected why) ↔
      let op := cw.toNat / 2 ^ 32
      let arg := cw.toNat % 2 ^ 32
      7 ≤ op ∨ (op = 0 ∨ op = 5 ∨ op = 6) ∧ arg ≠ 0 ∨ op = 2 ∧ 2 ^ 8 ≤ arg ∨ op = 3 ∧ 2 ^ 5 ≤ arg ∨
        op = 4 ∧ 2 ^ 3 ≤ arg) ∧
    (∀ len, decodeCommand cw = .instr (.start len) → len.toNat = cw.toNat % 2 ^ 32) ∧
    (∀ x, decodeCommand cw = .instr (.pushb x) → x.toNat = cw.toNat % 2 ^ 32) ∧
    (∀ j, decodeCommand cw = .instr (.rdb j) → j.toNat = cw.toNat % 2 ^ 32) ∧
    (∀ i, decodeCommand cw = .instr (.rdw i) → i.toNat = cw.toNat % 2 ^ 32)

/-- R75: a byte transport sends the opcode byte first, and gives the word back with the bytes after it. Nothing is said
of the order of the four bytes that follow the opcode, which is the model's choice (log 19). -/
def Obligations.OpcodeByteFirst : Prop :=
  ∀ (cw : CommandWord) (rest : List Byte),
    (bytesOfCommand cw).length = 5 ∧ (bytesOfCommand cw).head? = some (opField cw) ∧
    commandOfBytes (bytesOfCommand cw ++ rest) = some (cw, rest)

/-- R109, R110: a program's words are those of its lines, in order, and a program with a line outside its ranges cannot
be assembled; what each pseudo-command's words decode to. That printable ASCII is 0x20 to 0x7E is the model's reading
(log 16). -/
def Obligations.AssemblerExpansions : Prop :=
  assemble [] = some [] ∧
  (∀ l ls, assemble (l :: ls) = if l.WellFormed then (assemble ls).map (l.words ++ ·) else none) ∧
  (∀ text : List Char, (AsmLine.hash text).WellFormed →
    (AsmLine.hash text).words.map decodeCommand =
      [.instr (.start (BitVec.ofNat 32 text.length))] ++ text.map (fun c => .instr (.pushb (BitVec.ofNat 8 c.toNat))) ++
        (List.range 32).map fun j => .instr (.rdb (BitVec.ofNat 5 j))) ∧
  (∀ bytes : List Nat, (AsmLine.pushx bytes).WellFormed →
    (AsmLine.pushx bytes).words.map decodeCommand = bytes.map fun x => .instr (.pushb (BitVec.ofNat 8 x))) ∧
  (∀ x count : Nat, (AsmLine.pushn x count).WellFormed →
    (AsmLine.pushn x count).words.map decodeCommand = List.replicate count (.instr (.pushb (BitVec.ofNat 8 x)))) ∧
  (∀ text : List Char, (AsmLine.pushs text).WellFormed →
    (AsmLine.pushs text).words.map decodeCommand = text.map fun c => .instr (.pushb (BitVec.ofNat 8 c.toNat))) ∧
  AsmLine.digest.words.map decodeCommand = ((List.range 32).map fun j => .instr (.rdb (BitVec.ofNat 5 j))) ∧
  AsmLine.digestw.words.map decodeCommand = (List.range 8).map fun i => .instr (.rdw (BitVec.ofNat 3 i))

/-! ### Selection and the step -/

/-- R112: a select word that matches a row selects its micro-op, and no two rows match one word; which micro-op is
enabled, in words, in the states R52 allows; and the values of USEL that R112 lists as unreachable get no step, which is
the model's reading of R112 (DEDUCED, log 7). -/
def Obligations.MicroOpSelection : Prop :=
  (∀ r ∈ selectTable, ∀ u : SelectWord, u &&& r.mask = r.pattern → selectMicroOp u = .instr r.op) ∧
  (selectTable.Pairwise fun r r' => ∀ u : SelectWord, u &&& r.mask = r.pattern → u &&& r'.mask ≠ r'.pattern) ∧
  (∀ s : State, Rule52 s →
    (enabled s = some .ldw ↔ s.cp = .load) ∧ (enabled s = some .exp ↔ s.cp = .expand) ∧
    (enabled s = some .initv ↔ s.cp = .init) ∧ (enabled s = some .rnd ↔ s.cp = .round) ∧
    (enabled s = some .fold ↔ s.cp = .fold) ∧ (enabled s = some .disp ↔ s.cp = .cidle ∧ s.n.val = 64) ∧
    (enabled s = some .p80 ↔ s.cp = .cidle ∧ s.n.val < 64 ∧ s.pp = .pad80) ∧
    (enabled s = some .p00 ↔ s.cp = .cidle ∧ s.n.val < 64 ∧ s.pp = .pad00) ∧
    (enabled s = some .plen ↔ s.cp = .cidle ∧ s.n.val < 64 ∧ s.pp = .padlen) ∧
    (enabled s = none ↔
      s.cp = .cidle ∧ s.n.val < 64 ∧ (s.pp = .idle ∨ s.pp = .recv ∨ s.pp = .done ∨ s.pp = .fault))) ∧
  ∀ s : State, s.cp ≠ .cidle → (s.n.val ≠ 64 ∨ s.pp = .idle ∨ s.pp = .done ∨ s.pp = .fault) → enabled s = none

/-- R81, R218: a step runs the decoded instruction. On the command's turn it is `exec` of the presented word's
instruction, on the engine's turn `exec` of the enabled micro-op; the step adds only that the turn is used up. That
turns are data, and that with none given the enabled micro-op goes before the presented command (the two clauses at
`s.sched = []`), is the model's choice (log 3). -/
def Obligations.StepRunsTheDecodedInstruction : Prop :=
  ∀ (s : State) (rest : List Turn) (i : Instr),
    (s.sched = .command :: rest → ∀ cw, s.port = some cw → decodeCommand cw = .instr i →
      step s = exec i { s with sched := rest }) ∧
    (s.sched = .engine :: rest → enabled s = some i → step s = exec i { s with sched := rest }) ∧
    (s.sched = [] → enabled s = some i → step s = exec i s) ∧
    (s.sched = [] → enabled s = none → ∀ cw, s.port = some cw → decodeCommand cw = .instr i → step s = exec i s)

/-- An instruction placed by `withFetchWord` is what the next step runs (the model's interface, log 12): a command word
stands at the port, and a micro-op is run from the placed position. -/
def Obligations.PlacedInstructionRunsNext : Prop :=
  ∀ (s : State) (w : Nat) (i : Instr),
    (decodeTableWord 40 w = some i →
      step (s.withFetchWord 40 w) = exec i { s with port := some (BitVec.ofNat 40 w) }) ∧
    (decodeTableWord 8 w = some i →
      step (s.withFetchWord 8 w) = exec i (placeSelect (BitVec.ofNat 7 w) s) ∧ ∃ t, step (s.withFetchWord 8 w) = .next t)

/-- R104, R245: an illegal word outside FAULT raises the fault with cause 1 at once, whatever the engine is doing, and
has no other effect. -/
def Obligations.IllegalWordFaults : Prop :=
  ∀ (s : State) (rest : List Turn) (cw : CommandWord) (why : Rejection),
    s.sched = .command :: rest → s.port = some cw → decodeCommand cw = .rejected why → s.pp ≠ .fault →
    step s = .next { s with
      pp := .fault
      cp := .cidle
      t := 0
      n := 0
      q := 0
      cause := .illegalCmd
      rsp := s.rsp ++ [⟨true, 1⟩]
      port := none
      sched := rest }

/-- R270: a reset, in every state: the engine is as R55 says, the presented or held word is gone without a response,
the responses emitted stay. That what the host has yet to present and the turns to come stay too is the model's choice
(log 5). -/
def Obligations.ResetInputInEveryState : Prop :=
  ∀ (s : State) (rest : List Turn), s.sched = .rst :: rest →
    ∃ t, step s = .next t ∧ EngineReset t ∧ t.port = none ∧ t.rsp = s.rsp ∧ t.host = s.host ∧ t.sched = rest

/-- The host's move (R100, R220; the model's queue of words yet to present, log 4): it presents the next word when the
port is free, never changes a presented one, and changes nothing of the engine. -/
def Obligations.HostPresentsInOrder : Prop :=
  ∀ (s : State) (rest : List Turn), s.sched = .present :: rest →
    ∃ t, step s = .next t ∧ SameEngine s t ∧ t.rsp = s.rsp ∧ t.sched = rest ∧ pending t = pending s ∧
      (∀ cw, s.port = some cw → t.port = some cw) ∧
      (∀ cw ws, s.port = none → s.host = cw :: ws → t.port = some cw ∧ t.host = ws)

/-! ### Reset and status -/

/-- R55: the values of the engine's state after reset, and the command port; STATUS reads 0 in every state with those
values. -/
def Obligations.StateAfterReset : Prop :=
  EngineReset State.reset ∧ State.reset.port = none ∧ ∀ t : State, EngineReset t → status t = 0

/-- R46, R111, R106: the fields of STATUS; the select word is its low seven bits; a response as a 33-bit word. -/
def Obligations.StatusAndResponseLayout : Prop :=
  (∀ s : State,
    (status s).extractLsb' 0 3 = s.pp.code ∧
    (status s).getLsbD 3 = decide (s.n.val = 64) ∧
    (status s).extractLsb' 4 3 = s.cp.code ∧
    (status s).getLsbD 7 = false ∧
    (status s).getLsbD 8 = decide (s.pp = .recv ∧ s.cp = .cidle ∧ s.n.val < 64) ∧
    (status s).getLsbD 9 = decide (s.pp = .done) ∧
    (status s).getLsbD 10 = decide (s.pp = .fault) ∧
    (status s).getLsbD 11 = decide (s.pp = .recv ∨ s.pp = .pad80 ∨ s.pp = .pad00 ∨ s.pp = .padlen) ∧
    ((status s).extractLsb' 12 4).toNat = s.cause.code.toNat ∧
    (status s).extractLsb' 16 16 = 0 ∧
    selectWord s = (status s).extractLsb' 0 7) ∧
  ∀ r : Response, r.word.getLsbD 32 = r.err ∧ r.word.extractLsb' 0 32 = r.data

/-! ### Host commands -/

/-- R212: `NOP`, the all-zero word, is answered ok(0) in every phase, FAULT included, and changes nothing. -/
def Obligations.NopResult : Prop :=
  decodeCommand 0 = .instr .nop ∧
  ∀ s : State, exec .nop s = .next { s with rsp := s.rsp ++ [⟨false, 0⟩], port := none }

/-- R216: `RDS` is answered with STATUS of the state at this step, in every phase, and changes nothing. -/
def Obligations.RdsResult : Prop :=
  ∀ s : State, exec .rds s = .next { s with rsp := s.rsp ++ [⟨false, status s⟩], port := none }

/-- R217, R252: `ABORT` is accepted in every phase, gives the reset state and is answered ok(0). -/
def Obligations.AbortResult : Prop :=
  ∀ s : State, ∃ t, exec .abort s = .next t ∧ EngineReset t ∧ t.rsp = s.rsp ++ [⟨false, 0⟩] ∧ t.port = none ∧
    t.host = s.host ∧ t.sched = s.sched

/-- R210: `START len` in every phase: accepted in IDLE and in DONE, fault 3 in RECV, held while the engine pads,
rejected in FAULT. -/
def Obligations.StartResult : Prop :=
  ∀ (s : State) (len : Word),
    (s.pp = .idle ∨ s.pp = .done → exec (.start len) s = .next { s with
      h := #v[some 0x6a09e667, some 0xbb67ae85, some 0x3c6ef372, some 0xa54ff53a, some 0x510e527f, some 0x9b05688c,
        some 0x1f83d9ab, some 0x5be0cd19]
      len := len
      cnt := 0
      n := 0
      q := 0
      t := 0
      pp := if len = 0 then .pad80 else .recv
      rsp := s.rsp ++ [⟨false, 0⟩]
      port := none }) ∧
    (s.pp = .recv → exec (.start len) s = .next { s with
      pp := .fault
      cp := .cidle
      t := 0
      n := 0
      q := 0
      cause := .startWhileReceiving
      rsp := s.rsp ++ [⟨true, 3⟩]
      port := none }) ∧
    (s.pp = .pad80 ∨ s.pp = .pad00 ∨ s.pp = .padlen → exec (.start len) s = .next s) ∧
    (s.pp = .fault → exec (.start len) s = .next { s with rsp := s.rsp ++ [⟨true, s.cause.code⟩], port := none })

/-- R213: `PUSHB byte` in every phase: accepted in RECV with the core idle and room in the buffer, else held there;
fault 2 outside RECV; rejected in FAULT. -/
def Obligations.PushbResult : Prop :=
  ∀ (s : State) (x : Byte),
    (s.pp = .recv → s.cp = .cidle → s.n.val < 64 → exec (.pushb x) s = .next { s with
      b := s.b.write s.n.val x
      n := s.n + 1
      cnt := s.cnt + 1
      pp := if s.cnt + 1 = s.len then .pad80 else .recv
      rsp := s.rsp ++ [⟨false, 0⟩]
      port := none }) ∧
    (s.pp = .recv → s.cp ≠ .cidle ∨ s.n.val = 64 → exec (.pushb x) s = .next s) ∧
    (s.pp = .idle ∨ s.pp = .pad80 ∨ s.pp = .pad00 ∨ s.pp = .padlen ∨ s.pp = .done →
      exec (.pushb x) s = .next { s with
        pp := .fault
        cp := .cidle
        t := 0
        n := 0
        q := 0
        cause := .pushUnexpected
        rsp := s.rsp ++ [⟨true, 2⟩]
        port := none }) ∧
    (s.pp = .fault → exec (.pushb x) s = .next { s with rsp := s.rsp ++ [⟨true, s.cause.code⟩], port := none })

/-- R214: `RDB j` in every phase: in DONE it answers the digest byte, zero-extended, and changes nothing; fault 4 in IDLE
and RECV, held while the engine pads, rejected in FAULT. A hash word that holds ⊥ (no reachable state has one in DONE)
gives a value nothing constrains (log 1). -/
def Obligations.RdbResult : Prop :=
  ∀ (s : State) (j : BitVec 5),
    (s.pp = .done → ∃ d, exec (.rdb j) s = .next { s with rsp := s.rsp ++ [⟨false, d⟩], port := none } ∧
      ∀ (i : Fin 8) (x : Word), i.val = j.toNat / 4 → s.h[i] = some x →
        d = (x >>> (8 * (3 - j.toNat % 4))) &&& 0xFF) ∧
    (s.pp = .idle ∨ s.pp = .recv → exec (.rdb j) s = .next { s with
      pp := .fault
      cp := .cidle
      t := 0
      n := 0
      q := 0
      cause := .readNoDigest
      rsp := s.rsp ++ [⟨true, 4⟩]
      port := none }) ∧
    (s.pp = .pad80 ∨ s.pp = .pad00 ∨ s.pp = .padlen → exec (.rdb j) s = .next s) ∧
    (s.pp = .fault → exec (.rdb j) s = .next { s with rsp := s.rsp ++ [⟨true, s.cause.code⟩], port := none })

/-- R215: `RDW i` in every phase: in DONE it answers the hash word, as a number, and changes nothing; otherwise as
`RDB`. ⊥ as in `RdbResult`. -/
def Obligations.RdwResult : Prop :=
  ∀ (s : State) (k : BitVec 3),
    (s.pp = .done → ∃ d, exec (.rdw k) s = .next { s with rsp := s.rsp ++ [⟨false, d⟩], port := none } ∧
      ∀ (i : Fin 8) (x : Word), i.val = k.toNat → s.h[i] = some x → d = x) ∧
    (s.pp = .idle ∨ s.pp = .recv → exec (.rdw k) s = .next { s with
      pp := .fault
      cp := .cidle
      t := 0
      n := 0
      q := 0
      cause := .readNoDigest
      rsp := s.rsp ++ [⟨true, 4⟩]
      port := none }) ∧
    (s.pp = .pad80 ∨ s.pp = .pad00 ∨ s.pp = .padlen → exec (.rdw k) s = .next s) ∧
    (s.pp = .fault → exec (.rdw k) s = .next { s with rsp := s.rsp ++ [⟨true, s.cause.code⟩], port := none })

/-- R246: fault entry, for every command and phase that raises it (R242, R243, R244, R245): six registers are written, the
response is err(k), everything else is as it was. -/
def Obligations.FaultEntry : Prop :=
  ∀ s : State, ∀ faultWith : Cause → Word → State,
    (∀ k c, faultWith k c = { s with
      pp := .fault
      cp := .cidle
      t := 0
      n := 0
      q := 0
      cause := k
      rsp := s.rsp ++ [⟨true, c⟩]
      port := none }) →
    (s.pp = .idle ∨ s.pp = .pad80 ∨ s.pp = .pad00 ∨ s.pp = .padlen ∨ s.pp = .done →
      ∀ x, exec (.pushb x) s = .next (faultWith .pushUnexpected 2)) ∧
    (s.pp = .recv → ∀ len, exec (.start len) s = .next (faultWith .startWhileReceiving 3)) ∧
    (s.pp = .idle ∨ s.pp = .recv →
      (∀ j, exec (.rdb j) s = .next (faultWith .readNoDigest 4)) ∧
      (∀ i, exec (.rdw i) s = .next (faultWith .readNoDigest 4))) ∧
    (s.pp ≠ .fault → ∀ cw why, s.port = some cw → decodeCommand cw = .rejected why →
      perform (fetch .command s) s = .next (faultWith .illegalCmd 1))

/-- R211, R218: a held command is not answered, stays presented, and nothing changes. -/
def Obligations.HeldCommandsChangeNothing : Prop :=
  ∀ s : State,
    (s.pp = .pad80 ∨ s.pp = .pad00 ∨ s.pp = .padlen →
      (∀ len, exec (.start len) s = .next s) ∧ (∀ j, exec (.rdb j) s = .next s) ∧ (∀ i, exec (.rdw i) s = .next s)) ∧
    (s.pp = .recv → s.cp ≠ .cidle ∨ s.n.val = 64 → ∀ x, exec (.pushb x) s = .next s)

/-- R247: in FAULT every command but `NOP`, `RDS`, `ABORT` is answered err(CAUSE) and changes nothing, an illegal word
too; STATUS there is `0x0000k406`. -/
def Obligations.RejectedInFault : Prop :=
  ∀ s : State, s.pp = .fault → ∀ rejected : State,
    rejected = { s with rsp := s.rsp ++ [⟨true, s.cause.code⟩], port := none } →
    (∀ len, exec (.start len) s = .next rejected) ∧ (∀ x, exec (.pushb x) s = .next rejected) ∧
    (∀ j, exec (.rdb j) s = .next rejected) ∧ (∀ i, exec (.rdw i) s = .next rejected) ∧
    (∀ rest cw why, s.sched = .command :: rest → s.port = some cw → decodeCommand cw = .rejected why →
      step s = .next { rejected with sched := rest }) ∧
    (s.cp = .cidle → s.n.val < 64 → status s = s.cause.code <<< 12 ||| 0x406)

/-! ### Padding controller -/

/-- R161: `P80`, with room in the buffer. -/
def Obligations.P80Result : Prop :=
  ∀ s : State, s.n.val < 64 →
    exec .p80 s = .next { s with
      b := s.b.write s.n.val 0x80
      n := s.n + 1
      pp := if s.n.val + 1 = 56 then .padlen else .pad00
      q := if s.n.val + 1 = 56 then 0 else s.q }

/-- R162: `P00`, with room in the buffer. -/
def Obligations.P00Result : Prop :=
  ∀ s : State, s.n.val < 64 →
    exec .p00 s = .next { s with
      b := s.b.write s.n.val 0x00
      n := s.n + 1
      pp := if s.n.val + 1 = 56 then .padlen else s.pp
      q := if s.n.val + 1 = 56 then 0 else s.q }

/-- R163, R72: `PLEN` appends byte Q of the 64-bit big-endian number 8·LEN; PP stays. -/
def Obligations.PlenResult : Prop :=
  ∀ s : State, s.n.val < 64 → s.q.val < 8 →
    exec .plen s = .next { s with
      b := s.b.write s.n.val (BitVec.ofNat 8 (8 * s.len.toNat / 2 ^ (56 - 8 * s.q.val)))
      n := s.n + 1
      q := s.q + 1 }

/-- R164: `DISP`. -/
def Obligations.DispResult : Prop :=
  ∀ s : State, exec .disp s = .next { s with cp := .load, t := 0 }

/-- R35, R49, R160, R213: what an instruction does to the block buffer, byte by byte. `P80`, `P00`, `PLEN` and an accepted
`PUSHB` store one byte, at index N, which is below 64; `ABORT` leaves every cell at ⊥; nothing else changes any byte. -/
def Obligations.WhatStoresToTheBuffer : Prop :=
  ∀ (i : Instr) (s t : State), exec i s = .next t →
    (i = .p80 → s.n.val < 64 ∧ t.b.read s.n.val = some 0x80) ∧
    (i = .p00 → s.n.val < 64 ∧ t.b.read s.n.val = some 0x00) ∧
    (i = .plen → s.n.val < 64 ∧ t.b.read s.n.val = some (lengthByte (bitLen s.len) s.q.val)) ∧
    (∀ x, i = .pushb x → s.pp = .recv → s.cp = .cidle → s.n.val < 64 → t.b.read s.n.val = some x) ∧
    (i = .abort → ∀ a, t.b.read a = none) ∧
    (i ≠ .abort → ∀ a, a ≠ s.n.val → t.b.read a = s.b.read a) ∧
    (i ≠ .abort → i ≠ .p80 → i ≠ .p00 → i ≠ .plen →
      (∀ x, i = .pushb x → s.pp ≠ .recv ∨ s.cp ≠ .cidle ∨ s.n.val = 64) → ∀ a, t.b.read a = s.b.read a)

/-! ### Message scheduler and compression function -/

/-- R180, R71: `LDW` with T = 0..15: W[T] is the big-endian word at B[4T..4T+3]. A byte that holds ⊥ gives a value
nothing constrains (log 1). -/
def Obligations.LdwResult : Prop :=
  ∀ s : State, s.t.val < 16 →
    ∃ x : Word, exec .ldw s = .next { s with
      w := s.w.set s.t.val (some x)
      cp := if s.t.val = 15 then .expand else s.cp
      t := s.t + 1 } ∧
    ∀ b0 b1 b2 b3 : Byte, s.b.read (4 * s.t.val) = some b0 → s.b.read (4 * s.t.val + 1) = some b1 →
      s.b.read (4 * s.t.val + 2) = some b2 → s.b.read (4 * s.t.val + 3) = some b3 →
      x.toNat = b0.toNat * 2 ^ 24 + b1.toNat * 2 ^ 16 + b2.toNat * 2 ^ 8 + b3.toNat

/-- R181: `EXP` with T = 16..63. A schedule word that holds ⊥ gives a value nothing constrains (log 1). -/
def Obligations.ExpResult : Prop :=
  ∀ s : State, 16 ≤ s.t.val →
    ∃ x : Word, exec .exp s = .next { s with
      w := s.w.set s.t.val (some x)
      cp := if s.t.val = 63 then .init else s.cp
      t := if s.t.val = 63 then 0 else s.t + 1 } ∧
    ∀ (i2 i7 i15 i16 : Fin 64) (w2 w7 w15 w16 : Word), i2.val + 2 = s.t.val → i7.val + 7 = s.t.val →
      i15.val + 15 = s.t.val → i16.val + 16 = s.t.val → s.w[i2] = some w2 → s.w[i7] = some w7 →
      s.w[i15] = some w15 → s.w[i16] = some w16 → x = ssig1 w2 + w7 + ssig0 w15 + w16

/-- R190: `INITV` copies the hash state, word by word; a word that holds ⊥ gives a value nothing constrains (log 1). -/
def Obligations.InitvResult : Prop :=
  ∀ s : State, ∃ x : Vector Word 8,
    exec .initv s = .next { s with
      v := #v[some x[0], some x[1], some x[2], some x[3], some x[4], some x[5], some x[6], some x[7]]
      cp := .round
      t := 0 } ∧
    ∀ (i : Fin 8) (y : Word), s.h[i] = some y → x[i] = y

/-- R191: `RND`, the round formula spelled out with a..h the old values of V[0..7]; a cell that holds ⊥ gives a value
nothing constrains (log 1). -/
def Obligations.RndResult : Prop :=
  ∀ s : State, ∃ a b c d e f g h w : Word,
    (let t1 := h + bsig1 e + ch e f g + roundK s.t.val + w
     let t2 := bsig0 a + maj a b c
     exec .rnd s = .next { s with
       v := #v[some (t1 + t2), some a, some b, some c, some (d + t1), some e, some f, some g]
       cp := if s.t.val = 63 then .fold else s.cp
       t := if s.t.val = 63 then 0 else s.t + 1 }) ∧
    (∀ x, s.v[0] = some x → a = x) ∧ (∀ x, s.v[1] = some x → b = x) ∧ (∀ x, s.v[2] = some x → c = x) ∧
    (∀ x, s.v[3] = some x → d = x) ∧ (∀ x, s.v[4] = some x → e = x) ∧ (∀ x, s.v[5] = some x → f = x) ∧
    (∀ x, s.v[6] = some x → g = x) ∧ (∀ x, s.v[7] = some x → h = x) ∧ (∀ x, s.w[s.t] = some x → w = x)

/-- R194: `FOLD` adds the working variables into the hash state, word by word mod 2^32, and ends the computation after
the last block; a cell that holds ⊥ gives a value nothing constrains (log 1). -/
def Obligations.FoldResult : Prop :=
  ∀ s : State, ∃ x : Vector Word 8,
    exec .fold s = .next { s with
      h := #v[some x[0], some x[1], some x[2], some x[3], some x[4], some x[5], some x[6], some x[7]]
      n := 0
      cp := .cidle
      pp := if s.pp = .padlen ∧ s.q.val = 8 then .done else s.pp } ∧
    ∀ (i : Fin 8) (y z : Word), s.h[i] = some y → s.v[i] = some z → x[i].toNat = (y.toNat + z.toNat) % 2 ^ 32

/-- Where a micro-op is performed outside the index range of its own rule, which happens in no state that meets the
invariant, the model stops by name (the model's choice, log 8; `PUSHB` is held there). -/
def Obligations.OutOfRangeMicroOpsStop : Prop :=
  ∀ s : State,
    (s.n.val = 64 → exec .p80 s = .fault .bufferIndex ∧ exec .p00 s = .fault .bufferIndex ∧
      (s.q.val < 8 → exec .plen s = .fault .bufferIndex)) ∧
    (s.q.val = 8 → exec .plen s = .fault .lengthByte) ∧
    (16 ≤ s.t.val → exec .ldw s = .fault .bufferIndex) ∧
    (s.t.val < 16 → exec .exp s = .fault .scheduleIndex)

/-! ### Invariants and whole-machine rules -/

/-- The invariant holds after reset (R52, R55). -/
def Obligations.InvariantAtReset : Prop := Inv State.reset

/-- Every step from a state that meets the invariant gives one that meets it (R52; its two additions are the model's,
log 13, log 10). -/
def Obligations.EveryStepKeepsTheInvariant : Prop :=
  ∀ s t : State, Inv s → step s = .next t → Inv t

/-- R52: every state reachable from reset satisfies its twelve items, under every interleaving and for every sequence of
words the host presents. -/
def Obligations.ReachableStatesSatisfyR52 : Prop :=
  ∀ (words : List CommandWord) (turns : List Turn) (k : Nat) (t : State),
    run k { State.reset with host := words, sched := turns } = .next t → Rule52 t

/-- R240, R160, R183, R193: nothing stops the machine: in a state that meets the invariant every step, whosoever's turn
it is, answers a next state. -/
def Obligations.NothingStopsTheMachine : Prop :=
  ∀ s : State, Inv s → ∃ t, step s = .next t

/-- R52 item 12: "no rule ever reads ⊥": every cell that the enabled micro-op or an accepted digest read reads is
written. -/
def Obligations.NoRuleReadsAnUnwrittenCell : Prop :=
  ∀ s : State, Inv s →
    (enabled s = some .ldw → ∀ d, d < 4 → s.b.read (4 * s.t.val + d) ≠ none) ∧
    (enabled s = some .exp → ∀ i : Fin 64, i.val + 2 = s.t.val ∨ i.val + 7 = s.t.val ∨ i.val + 15 = s.t.val ∨
      i.val + 16 = s.t.val → s.w[i] ≠ none) ∧
    (enabled s = some .initv → ∀ i : Fin 8, s.h[i] ≠ none) ∧
    (enabled s = some .rnd → (∀ i : Fin 8, s.v[i] ≠ none) ∧ s.w[s.t] ≠ none) ∧
    (enabled s = some .fold → ∀ i : Fin 8, s.h[i] ≠ none ∧ s.v[i] ≠ none) ∧
    (s.pp = .done → ∀ i : Fin 8, s.h[i] ≠ none)

/-- R38: the legal transitions of PP are exactly those listed, and each step makes one of them or keeps the phase. -/
def Obligations.OnlyLegalPhaseChanges : Prop :=
  ∀ s t : State, Inv s → step s = .next t → legalPhaseChange s.pp t.pp = true

/-- R277: from `DISP` to `FOLD` the block buffer belongs to the compression core: whatever the step, `B` keeps its
bytes, or the step is an `ABORT` or a reset, which abandons everything (R217, R270). -/
def Obligations.BufferBelongsToTheCore : Prop :=
  ∀ s t : State, Inv s → s.cp ≠ .cidle → step s = .next t → (∀ a, t.b.read a = s.b.read a) ∨
    (WipeTurn s ∧ EngineReset t)

/-- R247, R252, R253: FAULT is sticky: a step from FAULT keeps every register, CAUSE included, or is an `ABORT` or a
reset and gives the reset state. -/
def Obligations.FaultIsSticky : Prop :=
  ∀ s t : State, Inv s → s.pp = .fault → step s = .next t →
    SameEngine s t ∨ (WipeTurn s ∧ EngineReset t)

/-- R59: in DONE the core is idle, N = 0 and no micro-op is enabled; a step from DONE keeps PP and H, or is a `START`
that begins a computation, a command that takes a fault, or an `ABORT` or a reset that gives the reset state. -/
def Obligations.DigestStaysInDone : Prop :=
  ∀ s t : State, Inv s → s.pp = .done → step s = .next t →
    s.cp = .cidle ∧ s.n.val = 0 ∧ quiescent s = true ∧ (
    (t.pp = .done ∧ t.h = s.h) ∨
    ((∃ len, CommandTurn s (.instr (.start len))) ∧ (t.pp = .recv ∨ t.pp = .pad80) ∧ t.h = someWords initialHash) ∨
    (t.pp = .fault ∧ ((t.cause = .pushUnexpected ∧ ∃ x, CommandTurn s (.instr (.pushb x))) ∨
      (t.cause = .illegalCmd ∧ ∃ why, CommandTurn s (.rejected why)))) ∨
    (WipeTurn s ∧ EngineReset t))

/-- R81 (2), R106, R270: exactly one response per command taken, in order: a step emits one response exactly when it
takes the presented word, and only a reset discards a word unanswered; otherwise the port's word and the responses
stay. That a reset keeps what the host has yet to present is the model's choice (log 5). -/
def Obligations.OneResponsePerCommandTaken : Prop :=
  ∀ s t : State, step s = .next t →
    (∃ r, t.rsp = s.rsp ++ [r] ∧ nextTurn s = .command ∧ s.port ≠ none ∧ t.port = none ∧ t.host = s.host) ∨
    (t.rsp = s.rsp ∧ pending t = pending s ∧ ∀ cw, s.port = some cw → t.port = some cw) ∨
    (t.rsp = s.rsp ∧ nextTurn s = .rst ∧ t.port = none ∧ t.host = s.host)

/-- R219, R285: left alone, the engine reaches a state in which no micro-op is enabled within 334 micro-ops. -/
def Obligations.EngineReachesQuiescence : Prop :=
  ∀ s : State, Inv s →
    ∃ t, run 334 { s with sched := List.replicate 334 .engine } = .next t ∧ quiescent t = true

/-- R283: the micro-op sequence never depends on message bytes: two states that agree on everything but message bytes
and what is computed from them take steps of the same kind to two such states. -/
def Obligations.ControlIgnoresMessageBytes : Prop :=
  ∀ s s' t : State, Inv s → Inv s' → SameControl s s' → step s = .next t →
    isMicroStep s' = isMicroStep s ∧ enabled s' = enabled s ∧ ∃ t', step s' = .next t' ∧ SameControl t t'

/-! ### The functional layer -/

/-- R133 to R139: rotation, shift, the four rotate-and-xor functions, choice and majority, bit by bit. -/
def Obligations.MixingFunctionsBitByBit : Prop :=
  (∀ (x : Word) (n i : Nat), 0 < n → n < 32 → i < 32 →
    (rotr x n).getLsbD i = x.getLsbD ((i + n) % 32) ∧
    (shr x n).getLsbD i = (decide (i + n ≤ 31) && x.getLsbD (i + n))) ∧
  (∀ (x : Word) (i : Nat), i < 32 →
    (ssig0 x).getLsbD i = (x.getLsbD ((i + 7) % 32) ^^ x.getLsbD ((i + 18) % 32) ^^
      (decide (i + 3 ≤ 31) && x.getLsbD (i + 3))) ∧
    (ssig1 x).getLsbD i = (x.getLsbD ((i + 17) % 32) ^^ x.getLsbD ((i + 19) % 32) ^^
      (decide (i + 10 ≤ 31) && x.getLsbD (i + 10))) ∧
    (bsig0 x).getLsbD i = (x.getLsbD ((i + 2) % 32) ^^ x.getLsbD ((i + 13) % 32) ^^ x.getLsbD ((i + 22) % 32)) ∧
    (bsig1 x).getLsbD i = (x.getLsbD ((i + 6) % 32) ^^ x.getLsbD ((i + 11) % 32) ^^ x.getLsbD ((i + 25) % 32))) ∧
  ∀ (x y z : Word) (i : Nat), i < 32 →
    (ch x y z).getLsbD i = (if x.getLsbD i then y.getLsbD i else z.getLsbD i) ∧
    ((maj x y z).getLsbD i = true ↔
      2 ≤ (x.getLsbD i).toNat + (y.getLsbD i).toNat + (z.getLsbD i).toNat)

/-- R140, R141: `K[t]` is the first 32 bits of the fractional part of the cube root of the (t+1)-th prime, `IV[i]` those
of the square root of the (i+1)-th prime: with some whole part c in front, neither too large nor too small by one. -/
def Obligations.ConstantTables : Prop :=
  let primes := (List.range 312).filter fun p => decide (2 ≤ p) && (List.range p).all fun d => decide (d < 2) || p % d != 0
  primes.length = 64 ∧
  (∀ t, t < 64 → ∃ c, c < 8 ∧ (c * 2 ^ 32 + (roundK t).toNat) ^ 3 ≤ primes.getD t 0 * 2 ^ 96 ∧
    primes.getD t 0 * 2 ^ 96 < (c * 2 ^ 32 + (roundK t).toNat + 1) ^ 3) ∧
  ∀ i : Fin 8, ∃ c, c < 8 ∧ (c * 2 ^ 32 + initialHash[i].toNat) ^ 2 ≤ primes.getD i.val 0 * 2 ^ 64 ∧
    primes.getD i.val 0 * 2 ^ 64 < (c * 2 ^ 32 + initialHash[i].toNat + 1) ^ 2

/-- R143: `pad(M)` is M, then 0x80, then the least number of zero bytes that makes the length 56 mod 64, then the
64-bit big-endian bit length. -/
def Obligations.PaddingShape : Prop :=
  ∀ m : List Byte, m.length < 2 ^ 32 →
    ∃ z, pad m = m ++ [0x80] ++ List.replicate z 0 ++
        ((List.range 8).map fun q => BitVec.ofNat 8 (8 * m.length / 2 ^ (56 - 8 * q))) ∧
      (m.length + 1 + z) % 64 = 56 ∧ ∀ y, (m.length + 1 + y) % 64 = 56 → z ≤ y

/-- R145, and R144 (which the spec derives): the blocks, each 64 bytes, in order, are `pad(M)`; there are
`(L + 8) div 64 + 1` of them; different messages have different padded sequences. -/
def Obligations.BlocksAreThePaddedMessage : Prop :=
  ∀ m : List Byte, m.length < 2 ^ 32 →
    (blocks m).flatten = pad m ∧ (∀ blk ∈ blocks m, blk.length = 64) ∧
    (blocks m).length = (m.length + 8) / 64 + 1 ∧
    ∀ m' : List Byte, m'.length < 2 ^ 32 → pad m = pad m' → m = m'

/-- R146: the schedule's sixteen big-endian words and its recurrence. -/
def Obligations.ScheduleRecurrence : Prop :=
  ∀ blk : List Byte, (schedule blk).length = 64 ∧
    (∀ t, t < 16 → ((schedule blk).getD t 0).toNat =
      (blk.getD (4 * t) 0).toNat * 2 ^ 24 + (blk.getD (4 * t + 1) 0).toNat * 2 ^ 16 +
      (blk.getD (4 * t + 2) 0).toNat * 2 ^ 8 + (blk.getD (4 * t + 3) 0).toNat) ∧
    (∀ t, 16 ≤ t → t < 64 → (schedule blk).getD t 0 =
      ssig1 ((schedule blk).getD (t - 2) 0) + (schedule blk).getD (t - 7) 0 +
      ssig0 ((schedule blk).getD (t - 15) 0) + (schedule blk).getD (t - 16) 0)

/-- R149, R151: the digest is 32 bytes, byte j being `(S[j div 4] >> (8·(3 - j mod 4))) & 0xFF`. -/
def Obligations.DigestSerialisation : Prop :=
  ∀ m : List Byte, (compute m).length = 32 ∧
    ∀ (j : Nat) (i : Fin 8), j / 4 = i.val →
      (compute m).getD j 0 =
        ((hashAfter m (blockCount m.length))[i] >>> (8 * (3 - j % 4))).setWidth 8

/-- R73, R74: in DONE, with `H[i]` written, `RDW i` is answered with a word and `RDB 4i .. RDB 4i+3` with four bytes
whose big-endian number that word is; nothing else changes. -/
def Obligations.WordViewOfTheDigest : Prop :=
  ∀ (s : State) (i : BitVec 3) (x : Word), s.pp = .done → s.h[i.toNat]'i.isLt = some x →
    ∃ byte : Nat → Word,
      exec (.rdw i) s = .next { s with rsp := s.rsp ++ [⟨false, x⟩], port := none } ∧
      (∀ k, k < 4 → (byte k).toNat < 2 ^ 8 ∧
        exec (.rdb (BitVec.ofNat 5 (4 * i.toNat + k))) s =
          .next { s with rsp := s.rsp ++ [⟨false, byte k⟩], port := none }) ∧
      x.toNat = (byte 0).toNat * 2 ^ 24 + (byte 1).toNat * 2 ^ 16 + (byte 2).toNat * 2 ^ 8 + (byte 3).toNat

/-! ### The operational layer computes the functional layer -/

/-- R182: sixteen `LDW` and forty-eight `EXP`, 64 turns of the engine, after `DISP` the schedule is `schedule(blk)`, blk
the bytes in `B`. -/
def Obligations.SchedulerDeliversTheSchedule : Prop :=
  ∀ (s : State) (blk : List Byte), s.cp = .load → s.t.val = 0 → s.n.val = 64 → s.pp.busy = true →
    (∀ a, a < 64 → s.b.read a = some (blk.getD a 0)) →
    ∃ t, run 64 { s with sched := List.replicate 64 .engine } = .next t ∧ t.cp = .init ∧ t.t.val = 0 ∧ ∀ i : Fin 64, t.w[i] = some ((schedule blk).getD i.val 0)

/-- R195: from a full block with the core idle, 131 turns of the engine are 131 micro-ops, and then `H = compress(S, blk)`, the buffer is free, and
nothing but V, H, W, the sequencer and (after the last block) PP has changed. -/
def Obligations.OneCompression : Prop :=
  ∀ (s : State) (blk : List Byte) (hash : Vector Word 8), s.cp = .cidle → s.n.val = 64 →
    s.pp.busy = true → s.h = someWords hash → (∀ a, a < 64 → s.b.read a = some (blk.getD a 0)) →
    let s₀ : State := { s with sched := List.replicate 131 .engine }
    ∃ t, run 131 s₀ = .next t ∧ microSteps 131 s₀ = 131 ∧ t.cp = .cidle ∧ t.n.val = 0 ∧
      t.h = someWords (compress hash blk) ∧ t.pp = (if s.pp = .padlen ∧ s.q.val = 8 then .done else s.pp) ∧
      t.b = s.b ∧ t.q = s.q ∧ t.len = s.len ∧ t.cnt = s.cnt ∧ t.cause = s.cause ∧ t.port = s.port ∧ t.rsp = s.rsp ∧
      t.host = s.host

/-- R165, R182, R195, R224: while the commands still to come are those of a well-formed computation over m and no reset
strikes, every step of whichever agent keeps every register at what the functional layer says of m, and the commands
still to come stay those of a well-formed computation. -/
def Obligations.EveryStepComputesTheMessage : Prop :=
  ∀ (m : List Byte) (k : Nat) (s t : State), m.length < 2 ^ 32 → Computing m k s →
    continues (missing m s) (pending s) = true → nextTurn s ≠ .rst → step s = .next t →
    (∃ k', k ≤ k' ∧ k' ≤ k + 1 ∧ Computing m k' t) ∧ continues (missing m t) (pending t) = true

/-- R224 (1), (3), (4): every answer of a well-formed computation, under every interleaving without a reset, is what
`compute` says: the commands taken so far are answered in order, err = 0, `RDB j` with `compute(M)[j]`. -/
def Obligations.WellFormedComputationIsAnsweredByCompute : Prop :=
  ∀ (m : List Byte) (commands : List CommandWord) (s t : State) (k : Nat), m.length < 2 ^ 32 → Inv s →
    s.pp = .idle ∨ s.pp = .done → s.port = none →
    s.host = (0x01#8 ++ BitVec.ofNat 32 m.length) :: commands → continues m commands = true → .rst ∉ s.sched →
    run k s = .next t →
    ∃ taken answers, s.host = taken ++ pending t ∧ t.rsp = s.rsp ++ answers ∧ List.Forall₂ (Answered m) taken answers

/-- R224 (2), R219, R113: a well-formed computation always ends: under every interleaving without a reset all its
commands are taken, and the engine is in DONE with the digest of m in H, after exactly `131·NB(L) + 9 + ((55 - L) mod
64)` micro-ops. That with no turn given the engine goes first is the model's choice (log 3). -/
def Obligations.WellFormedComputationEnds : Prop :=
  ∀ (m : List Byte) (commands : List CommandWord) (s : State), m.length < 2 ^ 32 → Inv s →
    s.pp = .idle ∨ s.pp = .done → s.port = none →
    s.host = (0x01#8 ++ BitVec.ofNat 32 m.length) :: commands → continues m commands = true → .rst ∉ s.sched →
    ∃ k t, run k s = .next t ∧ pending t = [] ∧ t.pp = .done ∧ quiescent t = true ∧
      t.h = someWords (hashAfter m (blockCount m.length)) ∧
      microSteps k s = 131 * blockCount m.length + 9 + (119 - m.length % 64) % 64

end
end

