-- ==== Sys2Proof/Laws/State.lean ====
section
/-! SUPPORT. For each named update of the state, one lemma per field: what the field is after it. -/

namespace Sys2Proof.Machine

@[simp] theorem setH_v (x : Vector Word 8) (s : State) : (setH x s).v = s.v := rfl
@[simp] theorem setH_h (x : Vector Word 8) (s : State) : (setH x s).h = someWords x := rfl
@[simp] theorem setH_w (x : Vector Word 8) (s : State) : (setH x s).w = s.w := rfl
@[simp] theorem setH_b (x : Vector Word 8) (s : State) : (setH x s).b = s.b := rfl
@[simp] theorem setH_pp (x : Vector Word 8) (s : State) : (setH x s).pp = s.pp := rfl
@[simp] theorem setH_cp (x : Vector Word 8) (s : State) : (setH x s).cp = s.cp := rfl
@[simp] theorem setH_t (x : Vector Word 8) (s : State) : (setH x s).t = s.t := rfl
@[simp] theorem setH_n (x : Vector Word 8) (s : State) : (setH x s).n = s.n := rfl
@[simp] theorem setH_q (x : Vector Word 8) (s : State) : (setH x s).q = s.q := rfl
@[simp] theorem setH_len (x : Vector Word 8) (s : State) : (setH x s).len = s.len := rfl
@[simp] theorem setH_cnt (x : Vector Word 8) (s : State) : (setH x s).cnt = s.cnt := rfl
@[simp] theorem setH_cause (x : Vector Word 8) (s : State) : (setH x s).cause = s.cause := rfl
@[simp] theorem setH_port (x : Vector Word 8) (s : State) : (setH x s).port = s.port := rfl
@[simp] theorem setH_rsp (x : Vector Word 8) (s : State) : (setH x s).rsp = s.rsp := rfl
@[simp] theorem setH_host (x : Vector Word 8) (s : State) : (setH x s).host = s.host := rfl
@[simp] theorem setH_sched (x : Vector Word 8) (s : State) : (setH x s).sched = s.sched := rfl
@[simp] theorem setH_epoch (x : Vector Word 8) (s : State) : (setH x s).epoch = s.epoch := rfl

@[simp] theorem setV_v (x : Vector Word 8) (s : State) : (setV x s).v = someWords x := rfl
@[simp] theorem setV_h (x : Vector Word 8) (s : State) : (setV x s).h = s.h := rfl
@[simp] theorem setV_w (x : Vector Word 8) (s : State) : (setV x s).w = s.w := rfl
@[simp] theorem setV_b (x : Vector Word 8) (s : State) : (setV x s).b = s.b := rfl
@[simp] theorem setV_pp (x : Vector Word 8) (s : State) : (setV x s).pp = s.pp := rfl
@[simp] theorem setV_cp (x : Vector Word 8) (s : State) : (setV x s).cp = s.cp := rfl
@[simp] theorem setV_t (x : Vector Word 8) (s : State) : (setV x s).t = s.t := rfl
@[simp] theorem setV_n (x : Vector Word 8) (s : State) : (setV x s).n = s.n := rfl
@[simp] theorem setV_q (x : Vector Word 8) (s : State) : (setV x s).q = s.q := rfl
@[simp] theorem setV_len (x : Vector Word 8) (s : State) : (setV x s).len = s.len := rfl
@[simp] theorem setV_cnt (x : Vector Word 8) (s : State) : (setV x s).cnt = s.cnt := rfl
@[simp] theorem setV_cause (x : Vector Word 8) (s : State) : (setV x s).cause = s.cause := rfl
@[simp] theorem setV_port (x : Vector Word 8) (s : State) : (setV x s).port = s.port := rfl
@[simp] theorem setV_rsp (x : Vector Word 8) (s : State) : (setV x s).rsp = s.rsp := rfl
@[simp] theorem setV_host (x : Vector Word 8) (s : State) : (setV x s).host = s.host := rfl
@[simp] theorem setV_sched (x : Vector Word 8) (s : State) : (setV x s).sched = s.sched := rfl
@[simp] theorem setV_epoch (x : Vector Word 8) (s : State) : (setV x s).epoch = s.epoch := rfl

@[simp] theorem setW_v (x : Word) (s : State) : (setW x s).v = s.v := rfl
@[simp] theorem setW_h (x : Word) (s : State) : (setW x s).h = s.h := rfl
@[simp] theorem setW_w (x : Word) (s : State) : (setW x s).w = s.w.set s.t.val (some x) := rfl
@[simp] theorem setW_b (x : Word) (s : State) : (setW x s).b = s.b := rfl
@[simp] theorem setW_pp (x : Word) (s : State) : (setW x s).pp = s.pp := rfl
@[simp] theorem setW_cp (x : Word) (s : State) : (setW x s).cp = s.cp := rfl
@[simp] theorem setW_t (x : Word) (s : State) : (setW x s).t = s.t := rfl
@[simp] theorem setW_n (x : Word) (s : State) : (setW x s).n = s.n := rfl
@[simp] theorem setW_q (x : Word) (s : State) : (setW x s).q = s.q := rfl
@[simp] theorem setW_len (x : Word) (s : State) : (setW x s).len = s.len := rfl
@[simp] theorem setW_cnt (x : Word) (s : State) : (setW x s).cnt = s.cnt := rfl
@[simp] theorem setW_cause (x : Word) (s : State) : (setW x s).cause = s.cause := rfl
@[simp] theorem setW_port (x : Word) (s : State) : (setW x s).port = s.port := rfl
@[simp] theorem setW_rsp (x : Word) (s : State) : (setW x s).rsp = s.rsp := rfl
@[simp] theorem setW_host (x : Word) (s : State) : (setW x s).host = s.host := rfl
@[simp] theorem setW_sched (x : Word) (s : State) : (setW x s).sched = s.sched := rfl
@[simp] theorem setW_epoch (x : Word) (s : State) : (setW x s).epoch = s.epoch := rfl

@[simp] theorem storeByte_v (x : Byte) (s : State) : (storeByte x s).v = s.v := rfl
@[simp] theorem storeByte_h (x : Byte) (s : State) : (storeByte x s).h = s.h := rfl
@[simp] theorem storeByte_w (x : Byte) (s : State) : (storeByte x s).w = s.w := rfl
@[simp] theorem storeByte_b (x : Byte) (s : State) : (storeByte x s).b = s.b.write s.n.val x := rfl
@[simp] theorem storeByte_pp (x : Byte) (s : State) : (storeByte x s).pp = s.pp := rfl
@[simp] theorem storeByte_cp (x : Byte) (s : State) : (storeByte x s).cp = s.cp := rfl
@[simp] theorem storeByte_t (x : Byte) (s : State) : (storeByte x s).t = s.t := rfl
@[simp] theorem storeByte_n (x : Byte) (s : State) : (storeByte x s).n = s.n + 1 := rfl
@[simp] theorem storeByte_q (x : Byte) (s : State) : (storeByte x s).q = s.q := rfl
@[simp] theorem storeByte_len (x : Byte) (s : State) : (storeByte x s).len = s.len := rfl
@[simp] theorem storeByte_cnt (x : Byte) (s : State) : (storeByte x s).cnt = s.cnt := rfl
@[simp] theorem storeByte_cause (x : Byte) (s : State) : (storeByte x s).cause = s.cause := rfl
@[simp] theorem storeByte_port (x : Byte) (s : State) : (storeByte x s).port = s.port := rfl
@[simp] theorem storeByte_rsp (x : Byte) (s : State) : (storeByte x s).rsp = s.rsp := rfl
@[simp] theorem storeByte_host (x : Byte) (s : State) : (storeByte x s).host = s.host := rfl
@[simp] theorem storeByte_sched (x : Byte) (s : State) : (storeByte x s).sched = s.sched := rfl
@[simp] theorem storeByte_epoch (x : Byte) (s : State) : (storeByte x s).epoch = s.epoch := rfl

@[simp] theorem respond_v (e : Bool) (d : Word) (s : State) : (respond e d s).v = s.v := rfl
@[simp] theorem respond_h (e : Bool) (d : Word) (s : State) : (respond e d s).h = s.h := rfl
@[simp] theorem respond_w (e : Bool) (d : Word) (s : State) : (respond e d s).w = s.w := rfl
@[simp] theorem respond_b (e : Bool) (d : Word) (s : State) : (respond e d s).b = s.b := rfl
@[simp] theorem respond_pp (e : Bool) (d : Word) (s : State) : (respond e d s).pp = s.pp := rfl
@[simp] theorem respond_cp (e : Bool) (d : Word) (s : State) : (respond e d s).cp = s.cp := rfl
@[simp] theorem respond_t (e : Bool) (d : Word) (s : State) : (respond e d s).t = s.t := rfl
@[simp] theorem respond_n (e : Bool) (d : Word) (s : State) : (respond e d s).n = s.n := rfl
@[simp] theorem respond_q (e : Bool) (d : Word) (s : State) : (respond e d s).q = s.q := rfl
@[simp] theorem respond_len (e : Bool) (d : Word) (s : State) : (respond e d s).len = s.len := rfl
@[simp] theorem respond_cnt (e : Bool) (d : Word) (s : State) : (respond e d s).cnt = s.cnt := rfl
@[simp] theorem respond_cause (e : Bool) (d : Word) (s : State) : (respond e d s).cause = s.cause := rfl
@[simp] theorem respond_port (e : Bool) (d : Word) (s : State) : (respond e d s).port = none := rfl
@[simp] theorem respond_rsp (e : Bool) (d : Word) (s : State) : (respond e d s).rsp = s.rsp ++ [⟨e, d⟩] := rfl
@[simp] theorem respond_host (e : Bool) (d : Word) (s : State) : (respond e d s).host = s.host := rfl
@[simp] theorem respond_sched (e : Bool) (d : Word) (s : State) : (respond e d s).sched = s.sched := rfl
@[simp] theorem respond_epoch (e : Bool) (d : Word) (s : State) : (respond e d s).epoch = s.epoch := rfl

@[simp] theorem enterFault_v (k : Cause) (s : State) : (enterFault k s).v = s.v := rfl
@[simp] theorem enterFault_h (k : Cause) (s : State) : (enterFault k s).h = s.h := rfl
@[simp] theorem enterFault_w (k : Cause) (s : State) : (enterFault k s).w = s.w := rfl
@[simp] theorem enterFault_b (k : Cause) (s : State) : (enterFault k s).b = s.b := rfl
@[simp] theorem enterFault_pp (k : Cause) (s : State) : (enterFault k s).pp = .fault := rfl
@[simp] theorem enterFault_cp (k : Cause) (s : State) : (enterFault k s).cp = .cidle := rfl
@[simp] theorem enterFault_t (k : Cause) (s : State) : (enterFault k s).t = 0 := rfl
@[simp] theorem enterFault_n (k : Cause) (s : State) : (enterFault k s).n = 0 := rfl
@[simp] theorem enterFault_q (k : Cause) (s : State) : (enterFault k s).q = 0 := rfl
@[simp] theorem enterFault_len (k : Cause) (s : State) : (enterFault k s).len = s.len := rfl
@[simp] theorem enterFault_cnt (k : Cause) (s : State) : (enterFault k s).cnt = s.cnt := rfl
@[simp] theorem enterFault_cause (k : Cause) (s : State) : (enterFault k s).cause = k := rfl
@[simp] theorem enterFault_port (k : Cause) (s : State) : (enterFault k s).port = s.port := rfl
@[simp] theorem enterFault_rsp (k : Cause) (s : State) : (enterFault k s).rsp = s.rsp := rfl
@[simp] theorem enterFault_host (k : Cause) (s : State) : (enterFault k s).host = s.host := rfl
@[simp] theorem enterFault_sched (k : Cause) (s : State) : (enterFault k s).sched = s.sched := rfl
@[simp] theorem enterFault_epoch (k : Cause) (s : State) : (enterFault k s).epoch = s.epoch := rfl

@[simp] theorem wipe_v (s : State) : (wipe s).v = Vector.replicate 8 none := rfl
@[simp] theorem wipe_h (s : State) : (wipe s).h = Vector.replicate 8 none := rfl
@[simp] theorem wipe_w (s : State) : (wipe s).w = Vector.replicate 64 none := rfl
@[simp] theorem wipe_b (s : State) : (wipe s).b = [] := rfl
@[simp] theorem wipe_pp (s : State) : (wipe s).pp = .idle := rfl
@[simp] theorem wipe_cp (s : State) : (wipe s).cp = .cidle := rfl
@[simp] theorem wipe_t (s : State) : (wipe s).t = 0 := rfl
@[simp] theorem wipe_n (s : State) : (wipe s).n = 0 := rfl
@[simp] theorem wipe_q (s : State) : (wipe s).q = 0 := rfl
@[simp] theorem wipe_len (s : State) : (wipe s).len = 0 := rfl
@[simp] theorem wipe_cnt (s : State) : (wipe s).cnt = 0 := rfl
@[simp] theorem wipe_cause (s : State) : (wipe s).cause = .none := rfl
@[simp] theorem wipe_port (s : State) : (wipe s).port = s.port := rfl
@[simp] theorem wipe_rsp (s : State) : (wipe s).rsp = s.rsp := rfl
@[simp] theorem wipe_host (s : State) : (wipe s).host = s.host := rfl
@[simp] theorem wipe_sched (s : State) : (wipe s).sched = s.sched := rfl
@[simp] theorem wipe_epoch (s : State) : (wipe s).epoch = s.epoch + 1 := rfl

@[simp] theorem consumeTurn_v (s : State) : (consumeTurn s).v = s.v := rfl
@[simp] theorem consumeTurn_h (s : State) : (consumeTurn s).h = s.h := rfl
@[simp] theorem consumeTurn_w (s : State) : (consumeTurn s).w = s.w := rfl
@[simp] theorem consumeTurn_b (s : State) : (consumeTurn s).b = s.b := rfl
@[simp] theorem consumeTurn_pp (s : State) : (consumeTurn s).pp = s.pp := rfl
@[simp] theorem consumeTurn_cp (s : State) : (consumeTurn s).cp = s.cp := rfl
@[simp] theorem consumeTurn_t (s : State) : (consumeTurn s).t = s.t := rfl
@[simp] theorem consumeTurn_n (s : State) : (consumeTurn s).n = s.n := rfl
@[simp] theorem consumeTurn_q (s : State) : (consumeTurn s).q = s.q := rfl
@[simp] theorem consumeTurn_len (s : State) : (consumeTurn s).len = s.len := rfl
@[simp] theorem consumeTurn_cnt (s : State) : (consumeTurn s).cnt = s.cnt := rfl
@[simp] theorem consumeTurn_cause (s : State) : (consumeTurn s).cause = s.cause := rfl
@[simp] theorem consumeTurn_port (s : State) : (consumeTurn s).port = s.port := rfl
@[simp] theorem consumeTurn_rsp (s : State) : (consumeTurn s).rsp = s.rsp := rfl
@[simp] theorem consumeTurn_host (s : State) : (consumeTurn s).host = s.host := rfl
@[simp] theorem consumeTurn_sched (s : State) : (consumeTurn s).sched = s.sched.tail := rfl
@[simp] theorem consumeTurn_epoch (s : State) : (consumeTurn s).epoch = s.epoch := rfl

end Sys2Proof.Machine
end

