-- ==== Sys2Proof/Laws/Cells.lean ====
section
/-! SUPPORT. Reading the register files: eight written words read back, and a written cell reads as its content. -/

namespace Sys2Proof.Machine

/-- An eight-word vector is the vector of its elements. -/
theorem vector8_eta {α : Type} (x : Vector α 8) : #v[x[0], x[1], x[2], x[3], x[4], x[5], x[6], x[7]] = x := by
  ext i hi
  interval_cases i <;> rfl

@[simp] theorem someWords_getElem (x : Vector Word 8) (i : Nat) (hi : i < 8) : (someWords x)[i] = some x[i] := by
  interval_cases i <;> rfl

/-- The hash state read as eight words, word by word. -/
@[simp] theorem hashWords_getElem (s : State) (i : Nat) (hi : i < 8) : (hashWords s)[i] = readH s ⟨i, hi⟩ := by
  interval_cases i <;> rfl

/-- The working variables read as eight words, word by word. -/
@[simp] theorem workingWords_getElem (s : State) (i : Nat) (hi : i < 8) : (workingWords s)[i] = readV s ⟨i, hi⟩ := by
  interval_cases i <;> rfl

@[simp] theorem addWords_getElem (x y : Vector Word 8) (i : Nat) (hi : i < 8) : (addWords x y)[i] = x[i] + y[i] := by
  interval_cases i <;> rfl

/-- A written cell reads as its content. -/
theorem readH_of_some {s : State} {i : Fin 8} {x : Word} (h : s.h[i] = some x) : readH s i = x := by
  simp [readH, h]

theorem readV_of_some {s : State} {i : Fin 8} {x : Word} (h : s.v[i] = some x) : readV s i = x := by
  simp [readV, h]

theorem readW_of_some {s : State} {t : Fin 64} {x : Word} (h : s.w[t] = some x) : readW s t = x := by
  simp [readW, h]

theorem readB_of_some {s : State} {a : Nat} {x : Byte} (h : s.b.read a = some x) : readB s a = x := by
  simp [readB, h]

/-- A hash state that is wholly written reads as what was written. -/
theorem hashWords_of_someWords {s : State} {x : Vector Word 8} (h : s.h = someWords x) : hashWords s = x := by
  ext i hi
  simp [readH, h]

theorem workingWords_of_someWords {s : State} {x : Vector Word 8} (h : s.v = someWords x) : workingWords s = x := by
  ext i hi
  simp [readV, h]

end Sys2Proof.Machine
end

