-- ==== Sys2Proof/Laws/Memory.lean ====
section
/-! SUPPORT. The block buffer as a memory: read after write, and the canonical form that every write keeps. -/

namespace Sys2Proof.Machine

@[simp] theorem Memory.read_nil (a : Nat) : Memory.read [] a = none := rfl

/-- A byte written is read back. -/
@[simp] theorem Memory.read_write_self (m : Memory) (a : Nat) (x : Byte) : (m.write a x).read a = some x := by
  induction m with
  | nil => simp [Memory.write, Memory.read]
  | cons c m ih =>
    obtain ⟨k, y⟩ := c
    simp only [Memory.write]
    split
    · simp [Memory.read]
    · split
      · simp [Memory.read]
      · rename_i h
        simp [Memory.read, ih, Ne.symm h]

/-- A write leaves every other index alone. -/
theorem Memory.read_write_ne (m : Memory) {a c : Nat} (x : Byte) (h : c ≠ a) : (m.write a x).read c = m.read c := by
  induction m with
  | nil => simp [Memory.write, Memory.read, Ne.symm h]
  | cons e m ih =>
    obtain ⟨k, y⟩ := e
    simp only [Memory.write]
    split
    · simp [Memory.read, Ne.symm h]
    · split
      · rename_i hk
        subst hk
        simp [Memory.read, Ne.symm h]
      · simp [Memory.read, ih]

/-- The two read-after-write laws as one equation. -/
theorem Memory.read_write (m : Memory) (a c : Nat) (x : Byte) :
    (m.write a x).read c = if c = a then some x else m.read c := by
  split
  · next h => rw [h, Memory.read_write_self]
  · next h => exact Memory.read_write_ne m x h

/-- Every index of the written memory is the written one or was there. -/
theorem Memory.mem_write {m : Memory} {a : Nat} {x : Byte} {e : Host.Cell} (h : e ∈ m.write a x) :
    e.1 = a ∨ e ∈ m := by
  induction m with
  | nil => simp only [Memory.write, List.mem_singleton] at h; exact .inl (by rw [h])
  | cons c m ih =>
    obtain ⟨k, y⟩ := c
    simp only [Memory.write] at h
    split at h
    · rcases List.mem_cons.1 h with h | h
      · exact .inl (by rw [h])
      · exact .inr h
    · split at h
      · rcases List.mem_cons.1 h with h | h
        · exact .inl (by rw [h])
        · exact .inr (List.mem_cons_of_mem _ h)
      · rcases List.mem_cons.1 h with h | h
        · exact .inr (by rw [h]; exact List.mem_cons_self)
        · exact (ih h).imp id (List.mem_cons_of_mem _)

@[simp] theorem Memory.wf_nil : Memory.wf [] := ⟨List.Pairwise.nil, by simp⟩

/-- A write inside the index space keeps the canonical form. -/
theorem Memory.wf_write {m : Memory} {a : Nat} (x : Byte) (hm : m.wf) (ha : a < 64) : (m.write a x).wf := by
  refine ⟨?_, fun e he => (Memory.mem_write he).elim (fun h => h ▸ ha) (hm.2 e)⟩
  obtain ⟨hp, -⟩ := hm
  induction m with
  | nil => simp [Memory.write]
  | cons c m ih =>
    obtain ⟨k, y⟩ := c
    have hk := List.pairwise_cons.1 hp
    simp only [Memory.write]
    split
    · next h =>
      refine List.pairwise_cons.2 ⟨fun e he => ?_, hp⟩
      rcases List.mem_cons.1 he with he | he
      · rw [he]; exact h
      · exact Nat.lt_trans h (hk.1 e he)
    · split
      · next h => exact List.pairwise_cons.2 ⟨fun e he => h ▸ hk.1 e he, hk.2⟩
      · next h1 h2 =>
        refine List.pairwise_cons.2 ⟨fun e he => ?_, ih hk.2⟩
        rcases Memory.mem_write he with he | he
        · simp only [he]; omega
        · exact hk.1 e he

end Sys2Proof.Machine
end

