-- ==== Sys2Proof/Laws/Ops.lean ====
section
/-! SUPPORT. One lemma per shared operation that says everything it can do. -/

namespace Sys2Proof.Machine

/-- A command is held, rejected, faulted or accepted, and answers a next state in the first three cases (R218). -/
theorem processCommand_next {c : CommandKind} {f : State → Result} {s s' : State}
    (h : processCommand c f s = .next s') :
    (disposition c s.pp s.cp s.n = .hold ∧ s' = s) ∨
    (disposition c s.pp s.cp s.n = .reject ∧ s' = respond true s.cause.code s) ∨
    (∃ k, disposition c s.pp s.cp s.n = .fault k ∧ s' = takeFault k s) ∨
    (disposition c s.pp s.cp s.n = .accept ∧ f s = .next s') := by
  unfold processCommand at h
  split at h
  · next hd => exact .inl ⟨hd, by simpa using h.symm⟩
  · next hd => exact .inr (.inl ⟨hd, by simpa using h.symm⟩)
  · next k hd => exact .inr (.inr (.inl ⟨k, hd, by simpa using h.symm⟩))
  · next hd => exact .inr (.inr (.inr ⟨hd, h⟩))

theorem processCommand_hold {c : CommandKind} {s : State} (f : State → Result)
    (hd : disposition c s.pp s.cp s.n = .hold) : processCommand c f s = .next s := by
  simp [processCommand, hd]

theorem processCommand_reject {c : CommandKind} {s : State} (f : State → Result)
    (hd : disposition c s.pp s.cp s.n = .reject) :
    processCommand c f s = .next (respond true s.cause.code s) := by
  simp [processCommand, hd]

theorem processCommand_fault {c : CommandKind} {k : Cause} {s : State} (f : State → Result)
    (hd : disposition c s.pp s.cp s.n = .fault k) : processCommand c f s = .next (takeFault k s) := by
  simp [processCommand, hd]

theorem processCommand_accept {c : CommandKind} {s : State} (f : State → Result)
    (hd : disposition c s.pp s.cp s.n = .accept) : processCommand c f s = f s := by
  simp [processCommand, hd]

/-- A byte is appended exactly when the buffer has room. -/
theorem appendByte_next {x : Byte} {f : State → State} {s s' : State} (h : appendByte x f s = .next s') :
    s.n.val < 64 ∧ s' = f (storeByte x s) := by
  unfold appendByte at h
  split at h
  · next hn => exact ⟨hn, by simpa using h.symm⟩
  · simp at h

theorem appendByte_of_room {s : State} (x : Byte) (f : State → State) (h : s.n.val < 64) :
    appendByte x f s = .next (f (storeByte x s)) := if_pos h

/-- N after a byte is appended. -/
theorem storeByte_n_val {s : State} (x : Byte) (h : s.n.val < 64) : (storeByte x s).n.val = s.n.val + 1 := by
  simp only [storeByte_n, Fin.val_add]
  exact Nat.mod_eq_of_lt (by omega)

/-- T after the index is advanced, where it does not wrap. -/
theorem t_succ_val {t : Fin 64} (h : t.val ≠ 63) : (t + 1).val = t.val + 1 := by
  simp only [Fin.val_add]
  have := t.isLt
  exact Nat.mod_eq_of_lt (by omega)

/-- Q after the count is advanced, where it does not wrap. -/
theorem q_succ_val {q : Fin 9} (h : q.val < 8) : (q + 1).val = q.val + 1 := by
  simp only [Fin.val_add]
  exact Nat.mod_eq_of_lt (by omega)

/-- A read of the schedule after one word of it was written. -/
theorem setW_getElem (x : Word) (s : State) (i : Fin 64) :
    (setW x s).w[i] = if i = s.t then some x else s.w[i] := by
  simp only [setW_w, Fin.getElem_fin, Vector.getElem_set, Fin.ext_iff, eq_comm]

/-- A fault keeps everything but the six registers of R246, answers and takes the word. -/
theorem takeFault_eq (k : Cause) (s : State) :
    takeFault k s =
      { s with
        pp := .fault
        cp := .cidle
        t := 0
        n := 0
        q := 0
        cause := k
        rsp := s.rsp ++ [⟨true, k.code⟩]
        port := none } := rfl

end Sys2Proof.Machine
end

