-- ==== Sys2Proof/Laws/Commands.lean ====
section
/-! SUPPORT. The disposition table read the other way round: what a disposition says of the state, and each host command as
its row of the table with what it does when accepted. -/

namespace Sys2Proof.Machine

/-- A faulting row names one of the four causes of R241. -/
theorem disposition_fault_cause {c : CommandKind} {pp : PadPhase} {cp : CorePhase} {n : Fin 65} {k : Cause}
    (h : disposition c pp cp n = .fault k) : k ≠ .none := by
  rintro rfl
  cases c <;> cases pp <;> simp [disposition] at h
  split at h <;> simp at h

/-- In FAULT no command faults again (R253). -/
theorem disposition_fault_phase {c : CommandKind} {pp : PadPhase} {cp : CorePhase} {n : Fin 65} {k : Cause}
    (h : disposition c pp cp n = .fault k) : pp ≠ .fault := by
  rintro rfl
  cases c <;> simp [disposition] at h

/-- Only in FAULT is a command rejected (R247). -/
theorem disposition_reject_phase {c : CommandKind} {pp : PadPhase} {cp : CorePhase} {n : Fin 65}
    (h : disposition c pp cp n = .reject) : pp = .fault := by
  cases c <;> cases pp <;> simp [disposition] at h ⊢
  split at h <;> simp at h

theorem accept_start {pp : PadPhase} {cp : CorePhase} {n : Fin 65} (h : disposition .start pp cp n = .accept) :
    pp = .idle ∨ pp = .done := by
  cases pp <;> simp_all [disposition]

theorem accept_push {pp : PadPhase} {cp : CorePhase} {n : Fin 65} (h : disposition .push pp cp n = .accept) :
    pp = .recv ∧ cp = .cidle ∧ n.val < 64 := by
  cases pp <;> simp_all [disposition]

theorem accept_read {pp : PadPhase} {cp : CorePhase} {n : Fin 65} (h : disposition .read pp cp n = .accept) :
    pp = .done := by
  cases pp <;> simp_all [disposition]

/-- No illegal word is accepted (R104). -/
theorem not_accept_illegal (pp : PadPhase) (cp : CorePhase) (n : Fin 65) :
    disposition .illegal pp cp n ≠ .accept := by
  cases pp <;> simp [disposition]

/-- Each host command: its row of the table, and what it does when accepted (R210 to R217). -/
theorem exec_nop (s : State) : exec .nop s = processCommand .always (fun s => .next (respond false 0 s)) s := rfl

theorem exec_start (len : Word) (s : State) :
    exec (.start len) s = processCommand .start (fun s => .next (respond false 0 (startComputation len s))) s := rfl

theorem exec_pushb (x : Byte) (s : State) :
    exec (.pushb x) s = processCommand .push (appendByte x (fun s' => respond false 0 (countByte s'))) s := rfl

theorem exec_rdb (j : BitVec 5) (s : State) :
    exec (.rdb j) s = processCommand .read (fun s => .next (respond false ((digestByte s j).setWidth 32) s)) s := rfl

theorem exec_rdw (i : BitVec 3) (s : State) :
    exec (.rdw i) s = processCommand .read (fun s => .next (respond false (readH s ⟨i.toNat, i.isLt⟩) s)) s := rfl

theorem exec_rds (s : State) :
    exec .rds s = processCommand .always (fun s => .next (respond false (status s) s)) s := rfl

theorem exec_abort (s : State) :
    exec .abort s = processCommand .always (fun s => .next (returnFromFault s)) s := rfl

/-- What a micro-op leaves of the world outside the engine: all of it (R160, R183, R193). -/
theorem exec_microOp_outside {i : Instr} {s t : State} (hm : i.isMicroOp = true) (h : exec i s = .next t) :
    t.rsp = s.rsp ∧ t.port = s.port ∧ t.host = s.host ∧ t.sched = s.sched := by
  cases i <;> simp [Instr.isMicroOp] at hm
  case ldw => simp only [exec, execLdw] at h; split at h <;> simp at h; rw [← h]; simp
  case exp => simp only [exec, execExp] at h; split at h <;> simp at h; rw [← h]; simp
  case initv => cases h; simp
  case rnd => cases h; simp
  case fold => cases h; simp
  case disp => cases h; simp
  case p80 =>
    obtain ⟨-, rfl⟩ := appendByte_next (show execP80 s = _ from h)
    split <;> simp
  case p00 =>
    obtain ⟨-, rfl⟩ := appendByte_next (show execP00 s = _ from h)
    split <;> simp
  case plen =>
    simp only [exec, execPlen] at h
    split at h
    · obtain ⟨-, rfl⟩ := appendByte_next h
      simp
    · simp at h

end Sys2Proof.Machine
end

