-- ==== Sys2Proof/Laws/Decode.lean ====
section
/-! SUPPORT. What the decoder can answer, and that the decoder never gives a micro-op for a command word. -/

namespace Sys2Proof

/-- `op` as a number (R101). -/
theorem opField_toNat (cw : CommandWord) : (opField cw).toNat = cw.toNat / 2 ^ 32 := by
  have := cw.isLt
  simp only [opField, BitVec.extractLsb'_toNat, Nat.shiftRight_eq_div_pow]
  omega

/-- `arg` as a number (R101). -/
theorem argField_toNat (cw : CommandWord) : (argField cw).toNat = cw.toNat % 2 ^ 32 := by
  simp only [argField, BitVec.extractLsb'_toNat, Nat.shiftRight_eq_div_pow, Nat.pow_zero, Nat.div_one]

theorem argField_eq_zero (cw : CommandWord) : argField cw = 0 ↔ cw.toNat % 2 ^ 32 = 0 := by
  rw [← BitVec.toNat_inj, argField_toNat]
  simp

/-- The reserved bits of an operand field are 0 exactly when the field as a number fits the operand (R104). -/
theorem reserved_eq_zero (x : BitVec 32) {lo n : Nat} (h : lo + n = 32) :
    x.extractLsb' lo n = 0 ↔ x.toNat < 2 ^ lo := by
  rw [← BitVec.toNat_inj]
  have hx := x.isLt
  have : x.toNat / 2 ^ lo < 2 ^ n := by
    rw [Nat.div_lt_iff_lt_mul (Nat.two_pow_pos lo), ← Nat.pow_add, Nat.add_comm n lo, h]
    exact hx
  simp only [BitVec.extractLsb'_toNat, Nat.shiftRight_eq_div_pow, Nat.mod_eq_of_lt this]
  simp [Nat.div_eq_zero_iff]

/-- A command word from its two fields (R101). -/
theorem commandWord_ext {cw cw' : CommandWord} (ho : opField cw = opField cw') (ha : argField cw = argField cw') :
    cw = cw' := by
  apply BitVec.eq_of_toNat_eq
  have h1 := congrArg BitVec.toNat ho
  have h2 := congrArg BitVec.toNat ha
  simp only [opField_toNat, argField_toNat] at h1 h2
  omega

/-- A command word decodes to a command with its operand bits, by opcode (R107). -/
theorem decodeCommand_instr {cw : CommandWord} {i : Instr} (h : decodeCommand cw = .instr i) :
    (i = .nop ∧ (opField cw).toNat = 0 ∧ argField cw = 0) ∨
    (i = .start (argField cw) ∧ (opField cw).toNat = 1) ∨
    (i = .pushb ((argField cw).extractLsb' 0 8) ∧ (opField cw).toNat = 2 ∧ (argField cw).extractLsb' 8 24 = 0) ∨
    (i = .rdb ((argField cw).extractLsb' 0 5) ∧ (opField cw).toNat = 3 ∧ (argField cw).extractLsb' 5 27 = 0) ∨
    (i = .rdw ((argField cw).extractLsb' 0 3) ∧ (opField cw).toNat = 4 ∧ (argField cw).extractLsb' 3 29 = 0) ∨
    (i = .rds ∧ (opField cw).toNat = 5 ∧ argField cw = 0) ∨
    (i = .abort ∧ (opField cw).toNat = 6 ∧ argField cw = 0) := by
  unfold decodeCommand at h
  dsimp only at h
  split at h <;> (try split at h) <;> simp_all

/-- A command word never decodes to a micro-op. -/
theorem decodeCommand_isMicroOp {cw : CommandWord} {i : Instr} (h : decodeCommand cw = .instr i) :
    i.isMicroOp = false := by
  rcases decodeCommand_instr h with ⟨rfl, -⟩ | ⟨rfl, -⟩ | ⟨rfl, -⟩ | ⟨rfl, -⟩ | ⟨rfl, -⟩ | ⟨rfl, -⟩ | ⟨rfl, -⟩ <;> rfl

/-- The micro-op selection, for each micro-op's own select word. -/
theorem selectMicroOp_patterns :
    (selectTable.map fun r => selectMicroOp r.pattern) = selectTable.map fun r => .instr r.op := by decide

end Sys2Proof
end

