-- ==== Sys2Proof/Laws/Functions.lean ====
section
/-! SUPPORT. The functional layer: bytes and words as numbers, the schedule word by word, the lengths of the padded
message. -/

namespace Sys2Proof.Machine

/-- Concatenation as a number (R8). -/
theorem toNat_append {m n : Nat} (x : BitVec m) (y : BitVec n) : (x ++ y).toNat = x.toNat * 2 ^ n + y.toNat := by
  rw [BitVec.toNat_append, ← Nat.shiftLeft_add_eq_or_of_lt y.isLt, Nat.shiftLeft_eq]

/-- A big-endian word as a number (R71). -/
theorem wordOfBytes_toNat (b0 b1 b2 b3 : Byte) :
    (wordOfBytes b0 b1 b2 b3).toNat = b0.toNat * 2 ^ 24 + b1.toNat * 2 ^ 16 + b2.toNat * 2 ^ 8 + b3.toNat := by
  simp only [wordOfBytes, toNat_append]
  omega

/-- A word is the big-endian word of its bytes (R73, R74). -/
theorem wordOfBytes_wordByte (x : Word) :
    wordOfBytes (wordByte x 0) (wordByte x 1) (wordByte x 2) (wordByte x 3) = x := by
  apply BitVec.eq_of_toNat_eq
  rw [wordOfBytes_toNat]
  have := x.isLt
  simp only [wordByte, BitVec.toNat_setWidth, BitVec.toNat_ushiftRight, Nat.shiftRight_eq_div_pow]
  omega

@[simp] theorem roundConstants_length : roundConstants.length = 64 := rfl

/-! ### The schedule -/

@[simp] theorem scheduleWords_length (blk : List Byte) (k : Nat) : (scheduleWords blk k).length = k + 16 := by
  induction k with
  | zero => simp [scheduleWords]
  | succ k ih => simp [scheduleWords, ih, Nat.add_right_comm]

/-- A longer schedule begins with the shorter one. -/
theorem scheduleWords_getD_succ (blk : List Byte) (k i : Nat) (h : i < k + 16) :
    (scheduleWords blk (k + 1)).getD i 0 = (scheduleWords blk k).getD i 0 := by
  simp only [scheduleWords]
  rw [List.getD_append _ _ _ _ (by simpa using h)]

theorem scheduleWords_getD_add (blk : List Byte) (k d i : Nat) (h : i < k + 16) :
    (scheduleWords blk (k + d)).getD i 0 = (scheduleWords blk k).getD i 0 := by
  induction d with
  | zero => rfl
  | succ d ih => rw [← Nat.add_assoc, scheduleWords_getD_succ _ _ _ (by omega), ih]

/-- The first sixteen words are the block's (R146). -/
theorem schedule_getD_block (blk : List Byte) {t : Nat} (h : t < 16) : (schedule blk).getD t 0 = blockWord blk t := by
  have := scheduleWords_getD_add blk 0 48 t (by omega)
  rw [schedule, show (48 : Nat) = 0 + 48 from rfl, this]
  simp [scheduleWords, List.getD_eq_getElem?_getD, h]

/-- The words after them are the recurrence's (R146). -/
theorem schedule_getD_expand (blk : List Byte) {t : Nat} (h : 16 ≤ t) (h' : t < 64) :
    (schedule blk).getD t 0 = expandWord ((schedule blk).getD (t - 2) 0) ((schedule blk).getD (t - 7) 0)
      ((schedule blk).getD (t - 15) 0) ((schedule blk).getD (t - 16) 0) := by
  obtain ⟨k, rfl⟩ : ∃ k, t = k + 16 := ⟨t - 16, by omega⟩
  have hk : ∀ i, i < k + 16 → (schedule blk).getD i 0 = (scheduleWords blk k).getD i 0 := fun i hi => by
    rw [schedule, show (48 : Nat) = k + (48 - k) by omega, scheduleWords_getD_add _ _ _ _ hi]
  have hk1 : (schedule blk).getD (k + 16) 0 = (scheduleWords blk (k + 1)).getD (k + 16) 0 := by
    rw [schedule, show (48 : Nat) = (k + 1) + (48 - (k + 1)) by omega, scheduleWords_getD_add _ _ _ _ (by omega)]
  rw [hk1, hk _ (by omega), hk _ (by omega), hk _ (by omega), hk _ (by omega)]
  simp only [scheduleWords]
  rw [List.getD_append_right _ _ _ _ (by simp)]
  simp [show k + 16 - 2 = k + 14 by omega, show k + 16 - 7 = k + 9 by omega, show k + 16 - 15 = k + 1 by omega]

/-! ### The padded message -/

@[simp] theorem be64_length (x : BitVec 64) : (be64 x).length = 8 := by simp [be64]

@[simp] theorem pad_length (m : List Byte) : (pad m).length = m.length + 1 + zeroCount m.length + 8 := by
  simp [pad]
  omega

/-- The padded message is 64 bytes for each block (R144). -/
theorem pad_length_blocks (m : List Byte) : m.length + 1 + zeroCount m.length + 8 = 64 * blockCount m.length := by
  simp only [zeroCount, blockCount]
  omega

/-- The bytes of the padded message: the message (R143). -/
theorem pad_getD_message (m : List Byte) {i : Nat} (h : i < m.length) : (pad m).getD i 0 = m.getD i 0 := by
  unfold pad
  rw [List.getD_append _ _ _ _ (by simp; omega), List.getD_append _ _ _ _ (by simp; omega),
    List.getD_append _ _ _ _ h]

/-- … then 0x80 … -/
theorem pad_getD_80 (m : List Byte) : (pad m).getD m.length 0 = 0x80 := by
  unfold pad
  rw [List.getD_append _ _ _ _ (by simp), List.getD_append _ _ _ _ (by simp),
    List.getD_append_right _ _ _ _ (Nat.le_refl _)]
  simp

/-- … then the zero bytes … -/
theorem pad_getD_00 (m : List Byte) {i : Nat} (h : m.length + 1 ≤ i) (h' : i < m.length + 1 + zeroCount m.length) :
    (pad m).getD i 0 = 0x00 := by
  unfold pad
  rw [List.getD_append _ _ _ _ (by simp; omega), List.getD_append_right _ _ _ _ (by simpa using h)]
  rw [List.getD_eq_getElem?_getD, List.getElem?_replicate]
  split <;> rfl

/-- … then the eight bytes of the bit length. -/
theorem pad_getD_length (m : List Byte) {q : Nat} (h : q < 8) :
    (pad m).getD (m.length + 1 + zeroCount m.length + q) 0 = lengthByte (BitVec.ofNat 64 (8 * m.length)) q := by
  unfold pad
  rw [List.getD_append_right _ _ _ _ (by simp; omega)]
  have : m.length + 1 + zeroCount m.length + q - (m ++ [0x80] ++ List.replicate (zeroCount m.length) (0x00 : Byte)).length = q := by
    simp; omega
  rw [this]
  simp [be64, List.getD_eq_getElem?_getD, h]

/-- The bit length that `PLEN` appends is the one `pad` appends (R48, R143). -/
theorem bitLen_eq {len : Word} {l : Nat} (h : len.toNat = l) : bitLen len = BitVec.ofNat 64 (8 * l) := by
  apply BitVec.eq_of_toNat_eq
  have := len.isLt
  simp [bitLen, Nat.shiftLeft_eq, h, Nat.mul_comm]

/-- The bytes of a block of the padded message (R145). -/
theorem block_getD (m : List Byte) (k : Nat) {a : Nat} (h : a < 64) : (block m k).getD a 0 = (pad m).getD (64 * k + a) 0 := by
  simp [block, List.getD_eq_getElem?_getD, h, List.getElem?_drop]

end Sys2Proof.Machine
end

