-- ==== Sys2Proof/Laws/PerInstr.lean ====
section
/-! SUPPORT. For each instruction: its encoding matches its own row of the tables of spec/30_encoding.md R103 and R112. -/

namespace Sys2Proof.Laws.EncodeRow

/-- The word `encode` gives a host command matches the row with the command's mnemonic, and the select word it gives a
micro-op matches the micro-op's own row. -/
def Statement (i : Instr) : Prop :=
  match encode i with
  | .command cw => i.isMicroOp = false ∧ ∃ r ∈ commandTable, r.mnemonic = i.mnemonic ∧ cw &&& r.mask = r.pattern
  | .select u => i.isMicroOp = true ∧ ∃ r ∈ selectTable, r.op = i ∧ u &&& r.mask = r.pattern

/-- A word made of an opcode and an operand, masked by a mask made the same way. -/
theorem append_and {m n : Nat} (a b : BitVec m) (c d : BitVec n) : (a ++ c) &&& (b ++ d) = (a &&& b) ++ (c &&& d) := by
  apply BitVec.eq_of_getLsbD_eq
  intro i hi
  simp only [BitVec.getLsbD_and, BitVec.getLsbD_append]
  split <;> rfl

theorem nop : Statement .nop := ⟨rfl, ⟨"NOP", 0x0000000000, 0xFFFFFFFFFF⟩, by decide, rfl, by decide⟩

theorem start (len : BitVec 32) : Statement (.start len) :=
  ⟨rfl, ⟨"START", 0x0100000000, 0xFF00000000⟩, by decide, rfl, by
    rw [show (0xFF00000000 : CommandWord) = 0xFF#8 ++ 0#32 from rfl, append_and]
    simp⟩

theorem pushb (byte : BitVec 8) : Statement (.pushb byte) :=
  ⟨rfl, ⟨"PUSHB", 0x0200000000, 0xFFFFFFFF00⟩, by decide, rfl, by
    rw [show (0xFFFFFFFF00 : CommandWord) = 0xFF#8 ++ (0xFFFFFF#24 ++ 0#8) from rfl, append_and, append_and]
    simp⟩

theorem rdb (j : BitVec 5) : Statement (.rdb j) :=
  ⟨rfl, ⟨"RDB", 0x0300000000, 0xFFFFFFFFE0⟩, by decide, rfl, by
    rw [show (0xFFFFFFFFE0 : CommandWord) = 0xFF#8 ++ (0x7FFFFFF#27 ++ 0#5) from rfl, append_and, append_and]
    simp⟩

theorem rdw (i : BitVec 3) : Statement (.rdw i) :=
  ⟨rfl, ⟨"RDW", 0x0400000000, 0xFFFFFFFFF8⟩, by decide, rfl, by
    rw [show (0xFFFFFFFFF8 : CommandWord) = 0xFF#8 ++ (0x1FFFFFFF#29 ++ 0#3) from rfl, append_and, append_and]
    simp⟩

theorem rds : Statement .rds := ⟨rfl, ⟨"RDS", 0x0500000000, 0xFFFFFFFFFF⟩, by decide, rfl, by decide⟩

theorem abort : Statement .abort := ⟨rfl, ⟨"ABORT", 0x0600000000, 0xFFFFFFFFFF⟩, by decide, rfl, by decide⟩

theorem ldw : Statement .ldw := ⟨rfl, ⟨.ldw, 0b0010000, 0b1110000⟩, by decide, rfl, by decide⟩

theorem exp : Statement .exp := ⟨rfl, ⟨.exp, 0b0100000, 0b1110000⟩, by decide, rfl, by decide⟩

theorem initv : Statement .initv := ⟨rfl, ⟨.initv, 0b0110000, 0b1110000⟩, by decide, rfl, by decide⟩

theorem rnd : Statement .rnd := ⟨rfl, ⟨.rnd, 0b1000000, 0b1110000⟩, by decide, rfl, by decide⟩

theorem fold : Statement .fold := ⟨rfl, ⟨.fold, 0b1010000, 0b1110000⟩, by decide, rfl, by decide⟩

theorem disp : Statement .disp := ⟨rfl, ⟨.disp, 0b0001000, 0b1111000⟩, by decide, rfl, by decide⟩

theorem p80 : Statement .p80 := ⟨rfl, ⟨.p80, 0b0000010, 0b1111111⟩, by decide, rfl, by decide⟩

theorem p00 : Statement .p00 := ⟨rfl, ⟨.p00, 0b0000011, 0b1111111⟩, by decide, rfl, by decide⟩

theorem plen : Statement .plen := ⟨rfl, ⟨.plen, 0b0000100, 0b1111111⟩, by decide, rfl, by decide⟩

end Sys2Proof.Laws.EncodeRow
end

