-- ==== Sys2Proof/Laws/Sequencer.lean ====
section
/-! SUPPORT. Which micro-op is enabled, in words (spec/30_encoding.md R112), and what a step can be. -/

namespace Sys2Proof.Machine

/-- The micro-op of the rows of R112, in words. -/
def enabledInWords (s : State) : Option Instr :=
  match s.cp with
  | .load => if s.n.val = 64 ∧ s.pp.busy = true then some .ldw else none
  | .expand => if s.n.val = 64 ∧ s.pp.busy = true then some .exp else none
  | .init => if s.n.val = 64 ∧ s.pp.busy = true then some .initv else none
  | .round => if s.n.val = 64 ∧ s.pp.busy = true then some .rnd else none
  | .fold => if s.n.val = 64 ∧ s.pp.busy = true then some .fold else none
  | .cidle =>
    if s.n.val = 64 then some .disp
    else match s.pp with
      | .pad80 => some .p80
      | .pad00 => some .p00
      | .padlen => some .plen
      | .idle => none
      | .recv => none
      | .done => none
      | .fault => none

/-- The selection by select word and the selection in words are the same (R112). -/
theorem enabled_eq_inWords (s : State) : enabled s = enabledInWords s := by
  unfold enabled enabledInWords unreachableSelect selectWord nfull
  generalize s.pp = pp
  generalize s.cp = cp
  by_cases hn : s.n.val = 64
  · have hb : (s.n.val == 64) = true := by simp [hn]
    rw [hb]
    simp only [hn, true_and, if_true]
    cases pp <;> cases cp <;> decide
  · have hb : (s.n.val == 64) = false := by simp [hn]
    rw [hb]
    simp only [hn, false_and, if_false]
    cases pp <;> cases cp <;> decide

/-- The core idle and the block not full: the padding controller's micro-ops. -/
theorem enabled_of_cidle_full {s : State} (hc : s.cp = .cidle) (hn : s.n.val = 64) : enabled s = some .disp := by
  simp [enabled_eq_inWords, enabledInWords, hc, hn]

/-- A micro-op is enabled only where its row says. -/
theorem enabled_some {s : State} {i : Instr} (h : enabled s = some i) :
    (i = .ldw ∧ s.cp = .load ∧ s.n.val = 64 ∧ s.pp.busy = true) ∨
    (i = .exp ∧ s.cp = .expand ∧ s.n.val = 64 ∧ s.pp.busy = true) ∨
    (i = .initv ∧ s.cp = .init ∧ s.n.val = 64 ∧ s.pp.busy = true) ∨
    (i = .rnd ∧ s.cp = .round ∧ s.n.val = 64 ∧ s.pp.busy = true) ∨
    (i = .fold ∧ s.cp = .fold ∧ s.n.val = 64 ∧ s.pp.busy = true) ∨
    (i = .disp ∧ s.cp = .cidle ∧ s.n.val = 64) ∨
    (i = .p80 ∧ s.cp = .cidle ∧ s.n.val ≠ 64 ∧ s.pp = .pad80) ∨
    (i = .p00 ∧ s.cp = .cidle ∧ s.n.val ≠ 64 ∧ s.pp = .pad00) ∨
    (i = .plen ∧ s.cp = .cidle ∧ s.n.val ≠ 64 ∧ s.pp = .padlen) := by
  rw [enabled_eq_inWords, enabledInWords] at h
  cases hc : s.cp <;> simp only [hc] at h
  case cidle =>
    split at h
    · next hn => simp_all
    · next hn => cases hp : s.pp <;> simp_all
  all_goals
    split at h
    · next hn => simp_all
    · simp at h

/-- The word at the port is what `presentNext` puts there only when the port was free. -/
theorem presentNext_of_port {s : State} {cw : CommandWord} (h : s.port = some cw) : presentNext s = s := by
  simp [presentNext, h]

theorem presentNext_of_host {s : State} {cw : CommandWord} {ws : List CommandWord} (h : s.port = none)
    (hw : s.host = cw :: ws) : presentNext s = { s with port := some cw, host := ws } := by
  simp [presentNext, h, hw]

theorem presentNext_of_empty {s : State} (h : s.port = none) (hw : s.host = []) : presentNext s = s := by
  simp [presentNext, h, hw]

/-- What one step is: an enabled micro-op, a command word taken or looked at, a word presented, a reset, or nothing. -/
theorem step_cases (s : State) :
    (∃ i, enabled s = some i ∧ nextTurn s = .engine ∧ step s = exec i (consumeTurn s)) ∨
    (∃ cw i, s.port = some cw ∧ decodeCommand cw = .instr i ∧ nextTurn s = .command ∧
      step s = exec i (consumeTurn s)) ∨
    (∃ cw why, s.port = some cw ∧ decodeCommand cw = .rejected why ∧ nextTurn s = .command ∧
      step s = execIllegal (consumeTurn s)) ∨
    (nextTurn s = .present ∧ step s = .next (presentNext (consumeTurn s))) ∨
    (nextTurn s = .rst ∧ step s = .next (resetInput (consumeTurn s))) ∨
    (((nextTurn s = .engine ∧ enabled s = none) ∨ (nextTurn s = .command ∧ s.port = none)) ∧
      step s = .next (consumeTurn s)) := by
  unfold step
  cases ht : nextTurn s
  case engine =>
    cases he : enabled s with
    | none => simp [fetch, he, perform]
    | some i => exact .inl ⟨i, rfl, rfl, by simp [fetch, he, perform]⟩
  case command =>
    cases hp : s.port with
    | none => simp [fetch, hp, perform]
    | some cw =>
      cases hd : decodeCommand cw with
      | instr i => exact .inr (.inl ⟨cw, i, rfl, hd, rfl, by simp [fetch, hp, hd, perform]⟩)
      | rejected why => exact .inr (.inr (.inl ⟨cw, why, rfl, hd, rfl, by simp [fetch, hp, hd, perform]⟩))
  case present => simp [fetch, perform]
  case rst => simp [fetch, perform]

/-- With the interleaving used up, the engine goes first. -/
theorem nextTurn_of_enabled {s : State} {i : Instr} (hs : s.sched = []) (he : enabled s = some i) :
    nextTurn s = .engine := by
  simp [nextTurn, hs, fairTurn, he]

/-- An engine turn performs the enabled micro-op. -/
theorem step_engine {s : State} {i : Instr} (ht : nextTurn s = .engine) (he : enabled s = some i) :
    step s = exec i (consumeTurn s) := by
  simp [step, ht, fetch, he, perform]

end Sys2Proof.Machine
end

