-- ==== Sys2Proof/Laws/Run.lean ====
section
/-! SUPPORT. Runs of several steps, one step at a time, and what a step of each kind leaves of the world outside the
engine. -/

namespace Sys2Proof.Machine

@[simp] theorem run_zero (s : State) : run 0 s = .next s := rfl

/-- A run is a step and then a run. -/
theorem run_succ_of_next {k : Nat} {s t : State} (h : step s = .next t) : run (k + 1) s = run k t := by
  have h' : Sys2Proof.core.step s = .next t := h
  simp only [run, Host.Core.run, h']
  rfl

/-- A run of several steps that ends in a state began with a step to one. -/
theorem run_succ_next {k : Nat} {s t : State} (h : run (k + 1) s = .next t) :
    ∃ u, step s = .next u ∧ run k u = .next t := by
  cases hs : step s with
  | next u => exact ⟨u, rfl, by rw [← h, run_succ_of_next hs]⟩
  | fault r =>
    have hs' : Sys2Proof.core.step s = .fault r := hs
    simp [run, Host.Core.run, hs'] at h
  | refused r =>
    have hs' : Sys2Proof.core.step s = .refused r := hs
    simp [run, Host.Core.run, hs'] at h

/-- The micro-ops of a run are those of its first step and of the rest. -/
theorem microSteps_succ_of_next {k : Nat} {s t : State} (h : step s = .next t) :
    microSteps (k + 1) s = (if isMicroStep s then 1 else 0) + microSteps k t := by
  simp [microSteps, h]

/-- The host's move changes nothing of the engine (R220). -/
theorem presentNext_sameEngine (s : State) : SameEngine s (presentNext s) := by
  unfold presentNext
  split <;> constructor <;> rfl

/-- Using up a turn changes nothing of the engine. -/
theorem consumeTurn_sameEngine (s : State) : SameEngine s (consumeTurn s) := by constructor <;> rfl

/-- Answering changes nothing of the engine. -/
theorem respond_sameEngine (e : Bool) (d : Word) (s : State) : SameEngine s (respond e d s) := by
  constructor <;> rfl

/-- The host's move keeps the commands not yet taken, in order. -/
theorem presentNext_pending (s : State) : pending (presentNext s) = pending s := by
  cases hp : s.port with
  | some cw => rw [presentNext_of_port hp]
  | none =>
    cases hh : s.host with
    | nil => rw [presentNext_of_empty hp hh]
    | cons cw ws => rw [presentNext_of_host hp hh]; simp [pending, hp, hh]

/-- A wiped engine is as R55 says. -/
theorem wipe_engineReset (s : State) : EngineReset (wipe s) := by
  refine ⟨rfl, rfl, rfl, rfl, rfl, rfl, rfl, rfl, ?_, ?_, ?_, ?_⟩ <;> simp

/-- The reset input leaves the engine as R55 says. -/
theorem resetInput_engineReset (s : State) : EngineReset (resetInput s) := by
  refine ⟨rfl, rfl, rfl, rfl, rfl, rfl, rfl, rfl, ?_, ?_, ?_, ?_⟩ <;> simp [resetInput]

/-- The invariant speaks of the engine only. -/
theorem SameEngine.inv {s t : State} (h : SameEngine s t) (hi : Inv s) : Inv t := by
  cases s
  cases t
  obtain ⟨rfl, rfl, rfl, rfl, rfl, rfl, rfl, rfl, rfl, rfl, rfl, rfl⟩ := h
  obtain ⟨⟨h2, h3, h4, h5, h6, h7, h8, h9, h10, h11, hh, hb, hw, hf, hv⟩, hp, hm⟩ := hi
  exact ⟨⟨h2, h3, h4, h5, h6, h7, h8, h9, h10, h11, hh, hb, hw, hf, hv⟩, hp, hm⟩

/-- So does what a computation over a message has reached. -/
theorem SameEngine.computing {m : List Byte} {k : Nat} {s t : State} (h : SameEngine s t) (hc : Computing m k s) :
    Computing m k t := by
  cases s
  cases t
  obtain ⟨rfl, rfl, rfl, rfl, rfl, rfl, rfl, rfl, rfl, rfl, rfl, rfl⟩ := h
  exact ⟨hc.len, hc.place, hc.buffer, hc.hash, hc.core⟩

end Sys2Proof.Machine
end

