-- ==== Sys2Proof/Tests/Slice0.lean ====
section
/-! SUPPORT. The model's own tests: expected values are those of spec/95_test_vectors.md (named below as TV) or written out
from the encoding tables; and, for each obligation with hypotheses, a witness that meets them. -/

namespace Sys2Proof.Tests

open Sys2Proof.Machine

/-! ### States to test on -/

/-- The next state, if the outcome is one. -/
def next? : Result → Option State
  | .next t => some t
  | .fault _ => none
  | .refused _ => none

/-- The one block of "abc" (TV 2.2). -/
def abcBytes : List Byte := [0x61, 0x62, 0x63, 0x80] ++ List.replicate 59 0 ++ [0x18]

/-- A buffer that holds these bytes. -/
def bufferOf (bytes : List Byte) : Memory := (List.range bytes.length).map fun a => (a, bytes.getD a 0)

/-- Reset, then a computation over "abc" with its three bytes accepted (TV 2.2). -/
def abcPad80 : State :=
  { State.reset with
    h := someWords initialHash
    b := bufferOf [0x61, 0x62, 0x63]
    pp := .pad80
    n := 3
    len := 3
    cnt := 3 }

/-- A computation over more than one block, its first block full and in the core, every cell written. -/
def full (cp : CorePhase) (t : Fin 64) : State :=
  { State.reset with
    h := someWords initialHash
    v := someWords initialHash
    w := Vector.replicate 64 (some 0x61626380)
    b := bufferOf (abcBytes)
    pp := .recv
    cp := cp
    t := t
    n := 64
    len := 100
    cnt := 64 }

/-- A finished computation whose digest is that of "abc" (TV 2.4). -/
def abcDone : State :=
  { State.reset with
    h := someWords #v[0xba7816bf, 0x8f01cfea, 0x414140de, 0x5dae2223, 0xb00361a3, 0x96177a9c, 0xb410ff61, 0xf20015ad]
    pp := .done
    q := 8
    len := 3
    cnt := 3 }

/-- Reset, then `START 2` (TV 2.7). -/
def receiving : State :=
  { State.reset with
    h := someWords initialHash
    pp := .recv
    len := 2 }

/-- Reset, then a fault with cause 2 (TV T2). -/
def faulted : State :=
  { State.reset with
    pp := .fault
    cause := .pushUnexpected }

/-! ### Source lines that cannot be assembled (R109, R110) -/

theorem test_start_range : ¬ (AsmLine.start (2 ^ 32)).WellFormed := by decide
theorem test_pushb_range : ¬ (AsmLine.pushb 256).WellFormed := by decide
theorem test_rdb_range : ¬ (AsmLine.rdb 32).WellFormed := by decide
theorem test_rdw_range : ¬ (AsmLine.rdw 8).WellFormed := by decide
theorem test_cw_range : ¬ (AsmLine.cw (2 ^ 40)).WellFormed := by decide
theorem test_pushs_printable : ¬ (AsmLine.pushs ['a', Char.ofNat 0x7F]).WellFormed := by decide
theorem test_pushx_range : ¬ (AsmLine.pushx [0, 256]).WellFormed := by decide
theorem test_pushn_range : ¬ (AsmLine.pushn 256 1).WellFormed := by decide
theorem test_hash_printable : ¬ (AsmLine.hash [Char.ofNat 0x1F]).WellFormed := by decide
theorem test_assemble_refuses : assemble [.nop, .rdb 32] = none := by decide

/-- Program P1 of TV 3: `HASH "abc"`, its first and last words. -/
theorem test_assemble_hash_abc :
    (assemble [.hash ['a', 'b', 'c']]).map (fun ws => (ws.length, ws.take 5, ws.drop 35)) =
      some (36, [0x0100000003, 0x0200000061, 0x0200000062, 0x0200000063, 0x0300000000], [0x030000001F]) := by decide

/-! ### Words written out from the encoding tables (R103, R112; TV 2.6) -/

theorem test_decode_nop : decodeCommand 0x0000000000 = .instr .nop := by decide
theorem test_decode_start : decodeCommand 0x0100000003 = .instr (.start 3) := by decide
theorem test_decode_start_max : decodeCommand 0x01FFFFFFFF = .instr (.start 0xFFFFFFFF) := by decide
theorem test_decode_pushb : decodeCommand 0x02000000FF = .instr (.pushb 0xFF) := by decide
theorem test_decode_rdb : decodeCommand 0x030000001F = .instr (.rdb 31) := by decide
theorem test_decode_rdw : decodeCommand 0x0400000007 = .instr (.rdw 7) := by decide
theorem test_decode_rds : decodeCommand 0x0500000000 = .instr .rds := by decide
theorem test_decode_abort : decodeCommand 0x0600000000 = .instr .abort := by decide
theorem test_decode_illegal :
    ([0x0000000001, 0x0200000100, 0x0280000000, 0x0300000020, 0x0400000008, 0x0500000001, 0x06FFFFFFFF].map
      decodeCommand).all (· == .rejected .reservedOperandBits) = true := by decide
theorem test_decode_reserved :
    ([0x0700000000, 0x8000000000, 0xFF00000000, 0xFFFFFFFFFF].map decodeCommand).all
      (· == .rejected .reservedOpcode) = true := by decide

/-- `CP = 1 LOAD`, NFULL = 1, `PP = 1 RECV` (R38, R39, R111). -/
theorem test_select_ldw : selectMicroOp 0b0011001 = .instr .ldw := by decide
/-- `CP = 2 EXPAND`, `PP = 2 PAD80`. -/
theorem test_select_exp : selectMicroOp 0b0101010 = .instr .exp := by decide
/-- `CP = 3 INIT`, `PP = 3 PAD00`. -/
theorem test_select_initv : selectMicroOp 0b0111011 = .instr .initv := by decide
/-- `CP = 4 ROUND`, `PP = 4 PADLEN`. -/
theorem test_select_rnd : selectMicroOp 0b1001100 = .instr .rnd := by decide
/-- `CP = 5 FOLD`, `PP = 1 RECV`. -/
theorem test_select_fold : selectMicroOp 0b1011001 = .instr .fold := by decide
/-- `CP = 0 CIDLE`, NFULL = 1, `PP = 1 RECV`. -/
theorem test_select_disp : selectMicroOp 0b0001001 = .instr .disp := by decide
/-- `CP = 0`, NFULL = 0, `PP = 2 PAD80`. -/
theorem test_select_p80 : selectMicroOp 0b0000010 = .instr .p80 := by decide
/-- `PP = 3 PAD00`. -/
theorem test_select_p00 : selectMicroOp 0b0000011 = .instr .p00 := by decide
/-- `PP = 4 PADLEN`. -/
theorem test_select_plen : selectMicroOp 0b0000100 = .instr .plen := by decide
/-- IDLE, RECV, DONE, FAULT with room in the block: quiescent (R112). -/
theorem test_select_none :
    ([0b0000000, 0b0000001, 0b0000101, 0b0000110].map selectMicroOp).all (· == .rejected .noMicroOp) = true := by decide

/-- No two rows of the micro-op table match one select word (R112). -/
theorem test_select_disjoint :
    selectTable.Pairwise fun r r' => ∀ u : SelectWord, u &&& r.mask = r.pattern → u &&& r'.mask ≠ r'.pattern := by decide

/-- A byte transport sends the opcode first (R75); the order of the other four bytes is log 19's. -/
theorem test_bytes_of_command : bytesOfCommand 0x0200000061 = [0x02, 0x00, 0x00, 0x00, 0x61] := by decide

/-- A stream of bytes: two words, and an incomplete third (the zero bytes do not show log 19's order). -/
theorem test_decode_bytes :
    decodeBytes 9 [0x05, 0, 0, 0, 0, 0x07, 0, 0, 0, 0, 0x00] = [.instr .rds, .rejected .reservedOpcode] := by decide

/-! ### The functional layer (TV 2.1 to 2.4) -/

theorem test_rotr_shr : (rotr 0x12345678 7, shr 0xFFFFFFFF 3, rotr 1 7) = (0xf02468ac, 0x1fffffff, 0x02000000) := by decide
theorem test_sigmas :
    (ssig0 0x12345678, ssig1 0x12345678, bsig0 0x12345678, bsig1 0x12345678) =
      (0xe7fce6ee, 0xa1f78649, 0x66146474, 0x3561abda) := by decide
theorem test_sigmas_top :
    (ssig0 0x80000000, ssig1 0x80000000, bsig0 0x80000000, bsig1 0x80000000) =
      (0x11002000, 0x00205000, 0x20040200, 0x02100040) := by decide
theorem test_ch_maj : (ch 0xf0f0f0f0 0xffff0000 0x00ffff00, maj 0xf0f0f0f0 0xffff0000 0x00ffff00) =
    (0xf0ff0f00, 0xf0fff000) := by decide
theorem test_pad_abc : pad [0x61, 0x62, 0x63] = abcBytes := by decide +kernel
theorem test_pad_56 : (pad (List.replicate 56 0x61)).drop 56 = [0x80] ++ List.replicate 69 0 ++ [0x01, 0xc0] := by
  decide +kernel
theorem test_block_counts : [0, 55, 56, 119, 120, 1000000, 4294967295].map blockCount =
    [1, 1, 2, 2, 3, 15626, 67108865] := by decide
theorem test_length_bytes_max : be64 (bitLen 0xFFFFFFFF) = [0, 0, 0, 7, 0xff, 0xff, 0xff, 0xf8] := by decide
theorem test_round_zero : round initialHash (roundK 0) 0x61626380 =
    #v[0x5d6aebcd, 0x6a09e667, 0xbb67ae85, 0x3c6ef372, 0xfa2a4622, 0x510e527f, 0x9b05688c, 0x1f83d9ab] := by
  decide +kernel
theorem test_expand_abc : (expandWord 0x00000018 0 0 0, expandWord 0x61626380 0 0 0) =
    (0x000f0000, 0x7da86405) := by decide
theorem test_expand_w31 : 0x7787aa1a + 0xc8215c1a + ssig0 0x61626380 + (0x00000018 : Word) = 0xd3b7973b := by decide
theorem test_digest_bytes : ser #v[0xba7816bf, 0x8f01cfea, 0x414140de, 0x5dae2223, 0xb00361a3, 0x96177a9c, 0xb410ff61,
    0xf20015ad] = [0xba, 0x78, 0x16, 0xbf, 0x8f, 0x01, 0xcf, 0xea, 0x41, 0x41, 0x40, 0xde, 0x5d, 0xae, 0x22, 0x23] ++
      [0xb0, 0x03, 0x61, 0xa3, 0x96, 0x17, 0x7a, 0x9c, 0xb4, 0x10, 0xff, 0x61, 0xf2, 0x00, 0x15, 0xad] := by
  decide +kernel

/-! ### The check of K and IV (R274): TV 2.1, and whole digests, in which every entry counts at its place -/

/-- V1, the digest of the empty message. -/
theorem test_compute_empty : (compute []).length = 32 ∧
    digestNumber [] = 0xe3b0c44298fc1c149afbf4c8996fb92427ae41e4649b934ca495991b7852b855 := by decide +kernel

/-- V2, the digest of "abc". -/
theorem test_compute_abc : (compute [0x61, 0x62, 0x63]).length = 32 ∧
    digestNumber [0x61, 0x62, 0x63] = 0xba7816bf8f01cfea414140de5dae2223b00361a396177a9cb410ff61f20015ad := by
  decide +kernel

/-- TV 2.5: 56 times 'a', two blocks. -/
theorem test_compute_two_blocks : (compute (List.replicate 56 0x61)).length = 32 ∧
    digestNumber (List.replicate 56 0x61) = 0xb35439a4ac6f0948b6d6f9e3c6af0f5f590ce20f1bde7090ef7970686ec6738a := by
  decide +kernel

/-- R274: the model's K and IV agree with the vectors of TV 1, 2.1 and 2.5. -/
theorem test_tables_checked : TablesChecked where
  entries := by decide
  sumK := by decide +kernel
  xorK := by decide +kernel
  sumIV := by decide +kernel
  xorIV := by decide +kernel
  digests := by
    simp only [referenceDigests, List.forall_mem_cons]
    exact ⟨test_compute_empty, test_compute_abc, test_compute_two_blocks, by simp⟩

/-! ### STATUS (TV 2.8) -/

theorem test_status_reset : status State.reset = 0x00000000 := by decide
theorem test_status_recv : (status receiving, status (full .cidle 0), status (full .round 5)) =
    (0x00000901, 0x00000809, 0x00000849) := by decide
theorem test_status_pad : (status abcPad80, status abcDone, status faulted) =
    (0x00000802, 0x00000205, 0x00002406) := by decide

/-! ### One step of each instruction -/

/-- T1: `NOP` is answered ok(0); in FAULT too (T2). -/
theorem test_nop : (next? (exec .nop faulted)).map (fun t => (t.rsp, t.pp, t.cause)) =
    some ([⟨false, 0⟩], .fault, .pushUnexpected) := by decide

/-- T10: the largest length. -/
theorem test_start : (next? (exec (.start 0xFFFFFFFF) State.reset)).map (fun t => (t.rsp, status t, t.len, t.h)) =
    some ([⟨false, 0⟩], 0x00000901, 0xFFFFFFFF, someWords initialHash) := by decide

/-- T5: `START` in RECV, cause 3; the hash state and LEN stay. -/
theorem test_start_receiving : (next? (exec (.start 0) receiving)).map (fun t => (t.rsp, status t, t.len, t.h)) =
    some ([⟨true, 3⟩], 0x00003406, 2, someWords initialHash) := by decide

/-- T9: the first of two bytes: CNT 1, N 1, RECV stays. -/
theorem test_pushb : (next? (exec (.pushb 0x61) receiving)).map (fun t => (t.rsp, status t, t.cnt, t.n, t.b.read 0)) =
    some ([⟨false, 0⟩], 0x00000901, 1, 1, some 0x61) := by decide

/-- T2: `PUSHB` before `START`, cause 2. -/
theorem test_pushb_idle : (next? (exec (.pushb 0x61) State.reset)).map (fun t => (t.rsp, status t)) =
    some ([⟨true, 2⟩], 0x00002406) := by decide

/-- T13: `RDB 31` and `RDB 0` of the digest of "abc". -/
theorem test_rdb : ((next? (exec (.rdb 31) abcDone)).map (·.rsp), (next? (exec (.rdb 0) abcDone)).map (·.rsp)) =
    (some [⟨false, 0xad⟩], some [⟨false, 0xba⟩]) := by decide

/-- T4: `RDB` in RECV, cause 4. -/
theorem test_rdb_receiving : (next? (exec (.rdb 0) receiving)).map (fun t => (t.rsp, status t)) =
    some ([⟨true, 4⟩], 0x00004406) := by decide

/-- T13: `RDW 7` of the digest of "abc". -/
theorem test_rdw : (next? (exec (.rdw 7) abcDone)).map (·.rsp) = some [⟨false, 0xf20015ad⟩] := by decide

/-- T12: a read is held while the engine pads. -/
theorem test_rdw_held : next? (exec (.rdw 0) { abcPad80 with port := some 0x0400000000 }) =
    some { abcPad80 with port := some 0x0400000000 } := by decide

/-- T2: `RDS` in FAULT with cause 2. -/
theorem test_rds : (next? (exec .rds faulted)).map (·.rsp) = some [⟨false, 0x00002406⟩] := by decide

/-- T14: `ABORT` gives the reset state, the response apart. -/
theorem test_abort : (next? (exec .abort (full .round 9))).map (fun t => (t.rsp, { t with rsp := [], epoch := 0 })) =
    some ([⟨false, 0⟩], State.reset) := by decide +kernel

/-- TV 2.2: `P80` after "abc" writes B[3] = 80; N = 4, PAD00. -/
theorem test_p80 : (next? (exec .p80 abcPad80)).map (fun t => (t.b.read 3, t.n, t.pp)) =
    some (some 0x80, 4, .pad00) := by decide

/-- TV 2.2: with N = 55, `P80` goes straight to PADLEN. -/
theorem test_p80_last : (next? (exec .p80 { abcPad80 with n := 55, q := 3 })).map (fun t => (t.n, t.pp, t.q)) =
    some (56, .padlen, 0) := by decide

/-- TV 2.2: the last `P00` makes N 56: PADLEN, Q = 0. -/
theorem test_p00 : (next? (exec .p00 { abcPad80 with pp := .pad00, n := 55, q := 3 })).map
    (fun t => (t.b.read 55, t.n, t.pp, t.q)) = some (some 0x00, 56, .padlen, 0) := by decide

/-- TV 2.2: a message of 56 bytes: the `P00` that fills the block stays in PAD00. -/
theorem test_p00_full : (next? (exec .p00 { abcPad80 with pp := .pad00, n := 63 })).map (fun t => (t.n, t.pp)) =
    some (64, .pad00) := by decide

/-- TV 2.2: the last length byte of "abc" is 18. -/
theorem test_plen : (next? (exec .plen { abcPad80 with pp := .padlen, n := 63, q := 7 })).map
    (fun t => (t.b.read 63, t.n, t.pp, t.q)) = some (some 0x18, 64, .padlen, 8) := by decide

/-- TV 2.2: the largest length: byte 3 of the field is 07. -/
theorem test_plen_max : (next? (exec .plen { abcPad80 with pp := .padlen, n := 59, q := 3, len := 0xFFFFFFFF })).map
    (fun t => t.b.read 59) = some (some 0x07) := by decide

theorem test_disp : (next? (exec .disp (full .cidle 0))).map (fun t => (t.cp, t.t, t.n, t.pp)) =
    some (.load, 0, 64, .recv) := by decide

/-- TV 2.3: W[0] of "abc". -/
theorem test_ldw : (next? (exec .ldw (full .load 0))).map (fun t => (t.w[0], t.cp, t.t)) =
    some (some 0x61626380, .load, 1) := by decide +kernel

/-- TV 2.3: W[15] of "abc", the last word loaded. -/
theorem test_ldw_last : (next? (exec .ldw (full .load 15))).map (fun t => (t.w[15], t.cp, t.t)) =
    some (some 0x00000018, .expand, 16) := by decide +kernel

/-- TV 2.3: W[18] of "abc" = σ1(W[16]), the other three words being 0. -/
theorem test_exp : (next? (exec .exp { full .expand 18 with w := (Vector.replicate 64 (some 0)).set 16 (some 0x61626380) })).map
    (fun t => (t.w[18], t.cp, t.t)) = some (some 0x7da86405, .expand, 19) := by decide +kernel

/-- R181: the last schedule word starts the rounds' set-up. -/
theorem test_exp_last : (next? (exec .exp (full .expand 63))).map (fun t => (t.cp, t.t)) = some (.init, 0) := by
  decide +kernel

/-- TV 2.4: V after `INITV` is the hash state. -/
theorem test_initv : (next? (exec .initv { full .init 0 with v := Vector.replicate 8 none })).map (fun t => (t.v, t.cp, t.t)) =
    some (someWords initialHash, .round, 0) := by decide +kernel

/-- TV 2.4: "abc", round 0. -/
theorem test_rnd : (next? (exec .rnd (full .round 0))).map (fun t => (t.v, t.cp, t.t)) =
    some (someWords #v[0x5d6aebcd, 0x6a09e667, 0xbb67ae85, 0x3c6ef372, 0xfa2a4622, 0x510e527f, 0x9b05688c, 0x1f83d9ab],
      .round, 1) := by decide +kernel

/-- R191: the last round. -/
theorem test_rnd_last : (next? (exec .rnd (full .round 63))).map (fun t => (t.cp, t.t)) = some (.fold, 0) := by
  decide +kernel

/-- TV 2.4: the `FOLD` of "abc", its only block: DONE. -/
theorem test_fold : (next? (exec .fold { full .fold 0 with
      v := someWords #v[0x506e3058, 0xd39a2165, 0x04d24d6c, 0xb85e2ce9, 0x5ef50f24, 0xfb121210, 0x948d25b6, 0x961f4894]
      pp := .padlen
      q := 8 })).map (fun t => (t.h, status t)) = some (abcDone.h, 0x00000205) := by decide +kernel

/-- R194: a block that is not the last: the phase stays and the buffer is free. -/
theorem test_fold_more : (next? (exec .fold (full .fold 0))).map (fun t => (t.pp, t.cp, t.n)) =
    some (.recv, .cidle, 0) := by decide +kernel

/-! ### Fetching: the placed instruction is the first to run after reset (log 12) -/

theorem test_fetch_start : next? (step (State.reset.withFetchWord 40 0x0100000003)) = next? (exec (.start 3) State.reset) := by
  decide
theorem test_fetch_plen : (next? (step (State.reset.withFetchWord 8 0b0000100))).map (fun t => (t.pp, t.n, t.q)) =
    some (.padlen, 1, 1) := by decide

/-- The reset input between two steps discards the presented word without a response (R270). -/
theorem test_reset_input : (next? (step { receiving with port := some 0x0200000061, sched := [.rst] })).map
    (fun t => (t.port, t.rsp, t.pp)) = some (none, [], .idle) := by decide

/-- An idle engine turn changes nothing (log 9). -/
theorem test_idle : next? (step { receiving with sched := [.engine] }) = some receiving := by decide +kernel

theorem test_cmd_ready : (cmdReady { abcPad80 with port := some 0x0400000000 }, cmdReady { abcDone with port := some 0x0400000000 }) =
    (false, true) := by decide

/-! ### Witnesses: states and operands that meet each obligation's hypotheses -/

theorem full_wf : (bufferOf abcBytes).wf := by decide +kernel

theorem full_buffer : ∀ a, a < 64 → (bufferOf abcBytes).read a = some (abcBytes.getD a 0) := by decide +kernel

/-- A block in the core meets the invariant, in every core phase with an index of that phase. -/
theorem full_inv (cp : CorePhase) (t : Fin 64)
    (h : (cp = .load → t.val < 16) ∧ (cp = .expand → 16 ≤ t.val) ∧ (cp = .init ∨ cp = .fold ∨ cp = .cidle → t.val = 0)) :
    Inv (full cp t) where
  rule52 := by
    constructor <;> simp [full, State.reset, PadPhase.busy, someWords_getElem]
    · exact ⟨h.1, h.2.1, fun hc => Fin.ext (h.2.2 hc)⟩
    · intro a ha
      rw [full_buffer a ha]
      simp
  pad80Full := by simp [full]
  bufferWf := full_wf

theorem full_load : Inv (full .load 15) := full_inv _ _ (by simp)
theorem full_expand : Inv (full .expand 16) := full_inv _ _ (by simp)
theorem full_init : Inv (full .init 0) := full_inv _ _ (by simp)
theorem full_round : Inv (full .round 63) := full_inv _ _ (by simp)
theorem full_fold : Inv (full .fold 0) := full_inv _ _ (by simp)
theorem full_cidle : Inv (full .cidle 0) := full_inv _ _ (by simp)

theorem abcPad80_inv : Inv abcPad80 where
  rule52 := by
    constructor <;> simp [abcPad80, State.reset, PadPhase.busy, someWords_getElem]
    decide
  pad80Full := by simp [abcPad80]
  bufferWf := by decide

theorem abcDone_inv : Inv abcDone where
  rule52 := by constructor <;> simp [abcDone, State.reset, PadPhase.busy, someWords_getElem]
  pad80Full := by simp [abcDone]
  bufferWf := by decide

theorem receiving_inv : Inv receiving where
  rule52 := by constructor <;> simp [receiving, State.reset, PadPhase.busy, someWords_getElem]
  pad80Full := by simp [receiving]
  bufferWf := by decide

theorem faulted_inv : Inv faulted where
  rule52 := by constructor <;> simp [faulted, State.reset, PadPhase.busy]
  pad80Full := by simp [faulted]
  bufferWf := by decide

theorem reset_inv : Inv State.reset where
  rule52 := by constructor <;> simp [State.reset, PadPhase.busy]
  pad80Full := by simp [State.reset]
  bufferWf := by decide

/-- The outcome a step or a run gives, where it gives one. -/
theorem next_of_isSome {r : Result} (h : (next? r).isSome = true) : ∃ t, r = .next t := by
  cases r with
  | next t => exact ⟨t, rfl⟩
  | fault _ => simp [next?] at h
  | refused _ => simp [next?] at h

theorem witness_DecodeOfEncode : (Instr.start 0xFFFFFFFF).WellFormed ∧ (Instr.pushb 0xFF).WellFormed ∧
    (Instr.rdb 31).WellFormed ∧ (Instr.rdw 7).WellFormed ∧ Instr.plen.WellFormed := by decide

theorem witness_EncodeOfDecode : decodeCommand 0x030000001F = .instr (.rdb 31) := by decide

theorem witness_DecoderFollowsTable : (0x02000000FF : CommandWord) &&& 0xFFFFFFFF00 = 0x0200000000 := by decide

/-- Each of the operand clauses at the top of its range. -/
theorem witness_IllegalWordsAndOperands :
    decodeCommand 0x01FFFFFFFF = .instr (.start 0xFFFFFFFF) ∧ decodeCommand 0x02000000FF = .instr (.pushb 0xFF) ∧
    decodeCommand 0x030000001F = .instr (.rdb 31) ∧ decodeCommand 0x0400000007 = .instr (.rdw 7) ∧
    decodeCommand 0x0400000008 = .rejected .reservedOperandBits := by decide

theorem witness_AssemblerExpansions : (AsmLine.hash [' ', '~']).WellFormed ∧ (AsmLine.hash []).WellFormed ∧
    (AsmLine.pushx [0, 255]).WellFormed ∧ (AsmLine.pushs [' ', '~']).WellFormed ∧ (AsmLine.pushn 255 55).WellFormed ∧
    ¬ (AsmLine.pushb 256).WellFormed := by decide

theorem witness_MicroOpSelection : (0b1001100 : SelectWord) &&& 0b1110000 = 0b1000000 ∧ Rule52 (full .load 15) ∧ Rule52 abcPad80 ∧
    ({ State.reset with cp := .load, t := 0 } : State).cp ≠ .cidle := ⟨by decide, full_load.rule52, abcPad80_inv.rule52, by decide⟩

theorem witness_StepRunsTheDecodedInstruction :
    decodeCommand 0x0200000061 = .instr (.pushb 0x61) ∧
    ({ receiving with port := some 0x0200000061, sched := [.command] } : State).sched = .command :: [] ∧
    enabled { abcPad80 with sched := [.engine] } = some .p80 ∧ abcPad80.sched = [] ∧ enabled abcPad80 = some .p80 ∧
    enabled { receiving with port := some 0x0200000061 } = none := by decide

theorem witness_PlacedInstructionRunsNext : decodeTableWord 40 0x0100000003 = some (.start 3) ∧
    decodeTableWord 8 0b0010000 = some .ldw ∧ decodeTableWord 8 0b0000100 = some .plen := by decide

theorem witness_IllegalWordFaults : decodeCommand 0x0700000000 = .rejected .reservedOpcode ∧
    ({ full .round 5 with port := some 0x0700000000, sched := [.command] } : State).pp ≠ .fault := by decide

theorem witness_ResetInputInEveryState :
    ({ full .round 5 with port := some 0x0500000000, sched := [.rst] } : State).sched = .rst :: [] := rfl

theorem witness_HostPresentsInOrder :
    ({ State.reset with host := [0x0100000003], sched := [.present] } : State).sched = .present :: [] ∧
    ({ State.reset with host := [0x0100000003], sched := [.present] } : State).port = none := ⟨rfl, rfl⟩

/-- A state in each phase: the clauses of the commands' results go by phase. -/
theorem witness_phases : State.reset.pp = .idle ∧ receiving.pp = .recv ∧ abcPad80.pp = .pad80 ∧ abcDone.pp = .done ∧
    faulted.pp = .fault := ⟨rfl, rfl, rfl, rfl, rfl⟩

theorem witness_StartResult : State.reset.pp = .idle ∧ abcDone.pp = .done ∧ receiving.pp = .recv ∧
    abcPad80.pp = .pad80 ∧ faulted.pp = .fault := ⟨rfl, rfl, rfl, rfl, rfl⟩

theorem witness_StateAfterReset : EngineReset State.reset := by
  refine ⟨rfl, rfl, rfl, rfl, rfl, rfl, rfl, rfl, ?_, ?_, ?_, ?_⟩ <;> simp [State.reset]

theorem witness_PushbResult : receiving.pp = .recv ∧ receiving.cp = .cidle ∧ receiving.n.val < 64 ∧
    (full .round 5).pp = .recv ∧ (full .round 5).cp ≠ .cidle ∧ (full .cidle 0).n.val = 64 ∧ abcDone.pp = .done ∧
    faulted.pp = .fault := by decide

/-- With the last room in the block. -/
theorem witness_PushbResult_last : ({ receiving with n := 63, len := 64, cnt := 63 } : State).n.val < 64 := by decide

theorem witness_RdbResult : abcDone.pp = .done ∧ (7 : Fin 8).val = (31 : BitVec 5).toNat / 4 ∧
    abcDone.h[(7 : Fin 8)] = some 0xf20015ad := by decide

theorem witness_RdwResult : abcDone.pp = .done ∧ (7 : Fin 8).val = (7 : BitVec 3).toNat ∧
    abcDone.h[(7 : Fin 8)] = some 0xf20015ad := by decide

/-- A function that gives the state of fault entry exists for every state, and each phase of the clauses is met. -/
theorem witness_FaultEntry (s : State) : (∃ faultWith : Cause → Word → State, ∀ k c, faultWith k c = { s with
      pp := .fault
      cp := .cidle
      t := 0
      n := 0
      q := 0
      cause := k
      rsp := s.rsp ++ [⟨true, c⟩]
      port := none }) ∧ State.reset.pp = .idle ∧ receiving.pp = .recv ∧ abcPad80.pp = .pad80 ∧ abcDone.pp = .done ∧
    decodeCommand 0x0700000000 = .rejected .reservedOpcode :=
  ⟨⟨_, fun _ _ => rfl⟩, rfl, rfl, rfl, rfl, by decide⟩

theorem witness_HeldCommandsChangeNothing : abcPad80.pp = .pad80 ∧ (full .round 5).pp = .recv ∧
    (full .round 5).cp ≠ .cidle ∧ (full .cidle 0).pp = .recv ∧ (full .cidle 0).n.val = 64 := by decide

theorem witness_RejectedInFault : faulted.pp = .fault ∧ decodeCommand 0x0700000000 = .rejected .reservedOpcode ∧
    ({ faulted with port := some 0x0700000000, sched := [.command] } : State).sched = .command :: [] ∧
    faulted.cp = .cidle ∧ faulted.n.val < 64 := by decide

theorem witness_P80Result : abcPad80.n.val < 64 ∧ ({ abcPad80 with n := 63 } : State).n.val < 64 := by decide

theorem witness_P00Result : ({ abcPad80 with pp := .pad00, n := 63 } : State).n.val < 64 := by decide

theorem witness_PlenResult : ({ abcPad80 with pp := .padlen, n := 63, q := 7 } : State).n.val < 64 ∧
    ({ abcPad80 with pp := .padlen, n := 63, q := 7 } : State).q.val < 8 := by decide

theorem witness_WhatStoresToTheBuffer : (∃ t, exec .p80 abcPad80 = .next t) ∧ (∃ t, exec .p00 abcPad80 = .next t) ∧
    (∃ t, exec .plen abcPad80 = .next t) ∧ (∃ t, exec (.pushb 0x61) receiving = .next t) ∧
    (∃ t, exec .abort abcPad80 = .next t) ∧ ∃ t, exec .disp (full .cidle 0) = .next t := by
  refine ⟨?_, ?_, ?_, ?_, ?_, ?_⟩ <;> exact next_of_isSome (by decide)

theorem witness_LdwResult : (full .load 15).t.val < 16 ∧ (full .load 15).b.read (4 * (full .load 15).t.val + 3) = some 0x18 := by
  decide +kernel

theorem witness_ExpResult : 16 ≤ (full .expand 16).t.val ∧ (14 : Fin 64).val + 2 = (full .expand 16).t.val ∧
    (full .expand 16).w[(14 : Fin 64)] = some 0x61626380 ∧ (0 : Fin 64).val + 16 = (full .expand 16).t.val ∧
    (full .expand 16).w[(0 : Fin 64)] = some 0x61626380 := by decide +kernel

theorem witness_InitvResult : (full .init 0).h[(7 : Fin 8)] = some 0x5be0cd19 := by decide

theorem witness_RndResult : (full .round 0).v[0] = some 0x6a09e667 ∧ (full .round 0).v[7] = some 0x5be0cd19 ∧
    (full .round 0).w[(full .round 0).t] = some 0x61626380 := by decide +kernel

theorem witness_FoldResult : (full .fold 0).h[(7 : Fin 8)] = some 0x5be0cd19 ∧
    (full .fold 0).v[(7 : Fin 8)] = some 0x5be0cd19 := by decide

theorem witness_OutOfRangeMicroOpsStop : (full .cidle 0).n.val = 64 ∧ (full .cidle 0).q.val < 8 ∧ abcDone.q.val = 8 ∧
    16 ≤ (full .expand 16).t.val ∧ (full .load 15).t.val < 16 := by decide

/-- A micro-op, a command and a reset, each from a state that meets the invariant. -/
theorem witness_EveryStepKeepsTheInvariant : Inv (full .round 63) ∧ (∃ t, step (full .round 63) = .next t) ∧
    Inv abcDone ∧ (∃ t, step { abcDone with port := some 0x0100000003 } = .next t) ∧
    ∃ t, step { receiving with sched := [.rst] } = .next t :=
  ⟨full_round, next_of_isSome (by decide +kernel), abcDone_inv, next_of_isSome (by decide +kernel),
    next_of_isSome (by decide +kernel)⟩

theorem witness_ReachableStatesSatisfyR52 :
    ∃ t, run 2 { State.reset with host := [0x0100000000], sched := [.present, .command] } = .next t :=
  next_of_isSome (by decide +kernel)

theorem witness_NothingStopsTheMachine : Inv (full .load 15) ∧ Inv (full .expand 16) ∧ Inv abcPad80 :=
  ⟨full_load, full_expand, abcPad80_inv⟩

/-- Each clause: the phase, the micro-op it enables, and the invariant. -/
theorem witness_NoRuleReadsAnUnwrittenCell :
    (Inv (full .load 15) ∧ enabled (full .load 15) = some .ldw) ∧
    (Inv (full .expand 16) ∧ enabled (full .expand 16) = some .exp) ∧
    (Inv (full .init 0) ∧ enabled (full .init 0) = some .initv) ∧
    (Inv (full .round 63) ∧ enabled (full .round 63) = some .rnd) ∧
    (Inv (full .fold 0) ∧ enabled (full .fold 0) = some .fold) ∧ Inv abcDone ∧ abcDone.pp = .done :=
  ⟨⟨full_load, by decide⟩, ⟨full_expand, by decide⟩, ⟨full_init, by decide⟩, ⟨full_round, by decide⟩,
    ⟨full_fold, by decide⟩, abcDone_inv, rfl⟩

theorem witness_OnlyLegalPhaseChanges : Inv abcPad80 ∧ ∃ t, step abcPad80 = .next t :=
  ⟨abcPad80_inv, next_of_isSome (by decide)⟩

/-- A micro-op, and an `ABORT` in the middle of the rounds. -/
theorem witness_BufferBelongsToTheCore : Inv (full .round 63) ∧ (full .round 63).cp ≠ .cidle ∧
    (∃ t, step (full .round 63) = .next t) ∧
    WipeTurn { full .round 63 with port := some 0x0600000000, sched := [.command] } ∧
    ∃ t, step { full .round 63 with port := some 0x0600000000, sched := [.command] } = .next t :=
  ⟨full_round, by decide, next_of_isSome (by decide +kernel), .inr ⟨rfl, by decide⟩, next_of_isSome (by decide +kernel)⟩

/-- A rejected command, an `ABORT` and a reset. -/
theorem witness_FaultIsSticky : Inv faulted ∧ faulted.pp = .fault ∧
    (∃ t, step { faulted with port := some 0x0200000061 } = .next t) ∧
    (WipeTurn { faulted with port := some 0x0600000000 } ∧ ∃ t, step { faulted with port := some 0x0600000000 } = .next t) ∧
    WipeTurn { faulted with sched := [.rst] } ∧ ∃ t, step { faulted with sched := [.rst] } = .next t :=
  ⟨faulted_inv, rfl, next_of_isSome (by decide), ⟨.inr ⟨by decide, by decide⟩, next_of_isSome (by decide)⟩, .inl rfl,
    next_of_isSome (by decide)⟩

/-- A read, a `START`, a `PUSHB`, an illegal word and an `ABORT`, in DONE. -/
theorem witness_DigestStaysInDone : Inv abcDone ∧ abcDone.pp = .done ∧
    (∃ t, step { abcDone with port := some 0x0400000000 } = .next t) ∧
    CommandTurn { abcDone with port := some 0x0100000003 } (.instr (.start 3)) ∧
    CommandTurn { abcDone with port := some 0x0200000061 } (.instr (.pushb 0x61)) ∧
    CommandTurn { abcDone with port := some 0x0700000000 } (.rejected .reservedOpcode) ∧
    WipeTurn { abcDone with port := some 0x0600000000 } :=
  ⟨abcDone_inv, rfl, next_of_isSome (by decide), ⟨by decide, by decide⟩, ⟨by decide, by decide⟩, ⟨by decide, by decide⟩,
    .inr ⟨by decide, by decide⟩⟩

theorem witness_OneResponsePerCommandTaken :
    ∃ t, step { receiving with port := some 0x0200000061, sched := [.command] } = .next t := next_of_isSome (by decide)

theorem witness_EngineReachesQuiescence : Inv { abcPad80 with n := 3 } := abcPad80_inv

/-- Two states that differ in a byte stored and in a byte about to be pushed. -/
theorem witness_ControlIgnoresMessageBytes :
    let s : State := { receiving with n := 1, cnt := 1, b := [(0, 0x61)], port := some 0x0200000062 }
    let s' : State := { receiving with n := 1, cnt := 1, b := [(0, 0x7A)], port := some 0x02000000FF }
    Inv s ∧ Inv s' ∧ SameControl s s' ∧ ∃ t, step s = .next t := by
  refine ⟨?_, ?_, ?_, next_of_isSome (by decide)⟩
  · constructor
    · constructor <;> simp [receiving, State.reset, PadPhase.busy, someWords_getElem, Memory.read]
    · simp [receiving]
    · decide
  · constructor
    · constructor <;> simp [receiving, State.reset, PadPhase.busy, someWords_getElem, Memory.read]
    · simp [receiving]
    · decide
  · constructor <;> decide

theorem witness_MixingFunctionsBitByBit : 0 < 31 ∧ 31 < 32 ∧ 28 + 3 ≤ 31 ∧ 21 + 10 ≤ 31 := by decide

theorem witness_ConstantTables : 63 < 64 := by decide

theorem witness_PaddingShape : ([] : List Byte).length < 2 ^ 32 ∧ (List.replicate 56 (0x61 : Byte)).length < 2 ^ 32 ∧
    (55 + 1 + 0) % 64 = 56 := by decide

theorem witness_BlocksAreThePaddedMessage : block [0x61, 0x62, 0x63] 0 ∈ blocks [0x61, 0x62, 0x63] ∧
    ([0x61, 0x62, 0x63] : List Byte).length < 2 ^ 32 := by decide +kernel

theorem witness_ScheduleRecurrence : 15 < 16 ∧ 16 ≤ 63 ∧ 63 < 64 := by decide

theorem witness_DigestSerialisation : 31 / 4 = (7 : Fin 8).val ∧ 0 / 4 = (0 : Fin 8).val := by decide

theorem witness_WordViewOfTheDigest : abcDone.pp = .done ∧ abcDone.h[(7 : BitVec 3).toNat]'(7 : BitVec 3).isLt = some 0xf20015ad ∧
    0 < 4 ∧ 3 < 4 := by decide

theorem witness_SchedulerDeliversTheSchedule : (full .load 0).cp = .load ∧
    (full .load 0).t.val = 0 ∧ (full .load 0).n.val = 64 ∧ (full .load 0).pp.busy = true ∧
    ∀ a, a < 64 → (full .load 0).b.read a = some (abcBytes.getD a 0) := ⟨rfl, rfl, rfl, rfl, full_buffer⟩

theorem witness_OneCompression : (full .cidle 0).cp = .cidle ∧ (full .cidle 0).n.val = 64 ∧
    (full .cidle 0).pp.busy = true ∧ (full .cidle 0).h = someWords initialHash ∧
    ∀ a, a < 64 → (full .cidle 0).b.read a = some (abcBytes.getD a 0) := ⟨rfl, rfl, rfl, rfl, full_buffer⟩

/-- "abc" after its last byte, the words of a digest read still to come. -/
theorem witness_EveryStepComputesTheMessage :
    let s : State := { abcPad80 with host := [0x0400000000, 0x0500000000] }
    ([0x61, 0x62, 0x63] : List Byte).length < 2 ^ 32 ∧ Computing [0x61, 0x62, 0x63] 0 s ∧
    continues (missing [0x61, 0x62, 0x63] s) (pending s) = true ∧ nextTurn s ≠ .rst ∧ ∃ t, step s = .next t :=
  ⟨by decide, ⟨rfl, rfl, by decide +kernel, rfl, trivial⟩, by decide, by decide, next_of_isSome (by decide)⟩

/-- `HASH "abc"` from reset. -/
theorem witness_WellFormedComputationIsAnsweredByCompute :
    let m : List Byte := [0x61, 0x62, 0x63]
    let commands : List CommandWord := [0x0200000061, 0x0200000062, 0x0500000000, 0x0200000063, 0x030000001F]
    let s : State := { State.reset with host := (0x01#8 ++ BitVec.ofNat 32 m.length) :: commands, sched := [.present, .engine] }
    m.length < 2 ^ 32 ∧ Inv s ∧ s.pp = .idle ∧ s.port = none ∧ continues m commands = true ∧ .rst ∉ s.sched ∧
      ∃ t, run 2 s = .next t := by
  refine ⟨by decide, ?_, rfl, rfl, by decide, by decide, next_of_isSome (by decide +kernel)⟩
  exact SameEngine.inv (s := State.reset) (by constructor <;> rfl) reset_inv

/-- The empty message, from reset. -/
theorem witness_WellFormedComputationEnds :
    let s : State := { State.reset with host := [0x01#8 ++ BitVec.ofNat 32 0] }
    ([] : List Byte).length < 2 ^ 32 ∧ Inv s ∧ s.pp = .idle ∧ s.port = none ∧ continues [] [] = true ∧ .rst ∉ s.sched :=
  ⟨by decide, SameEngine.inv (s := State.reset) (by constructor <;> rfl) reset_inv, rfl, rfl, rfl, by decide⟩

end Sys2Proof.Tests
end

section
/-! PROOFS. The fields of STATUS (R46) and of a response word (R106), and the state after reset (R55). -/

namespace Sys2Proof.Machine

open BitVec (getLsbD_append extractLsb'_append_eq_of_le extractLsb'_append_eq_of_add_le extractLsb'_eq_self)

/-! ### The status bits and the cause, in words -/

theorem nfull_eq (s : State) : nfull s = decide (s.n.val = 64) := rfl

theorem valid_eq (s : State) : valid s = decide (s.pp = .done) := rfl

theorem errBit_eq (s : State) : errBit s = decide (s.pp = .fault) := rfl

theorem ready_eq (s : State) : ready s = decide (s.pp = .recv ∧ s.cp = .cidle ∧ s.n.val < 64) := by
  rw [Bool.eq_iff_iff]
  simp [ready, and_assoc]

theorem PadPhase.busy_eq (p : PadPhase) :
    p.busy = decide (p = .recv ∨ p = .pad80 ∨ p = .pad00 ∨ p = .padlen) := by
  cases p <;> rfl

/-- The four bits in STATUS[15:12] and the word of an error response are the same number. -/
theorem Cause.bits_toNat (k : Cause) : k.bits.toNat = k.code.toNat := by
  cases k <;> rfl

@[simp] theorem bit_getElem_zero (x : Bool) : (bit x)[0] = x := by
  simp [bit]

/-! ### STATUS, field by field from bit 0 up

`simp only` cuts the appended fields apart while their widths are still sums; a full `simp` would fold a width such as
`16 + (4 + …)` to 32 first, and then no lemma about `++` applies. -/

/-- R111: the select word is STATUS[6:0]. -/
theorem status_selectWord (s : State) : (status s).extractLsb' 0 7 = selectWord s := by
  simp (disch := decide) only [status, extractLsb'_append_eq_of_add_le, extractLsb'_eq_self]

theorem status_phase (s : State) : (status s).extractLsb' 0 3 = s.pp.code := by
  simp (disch := decide) only [status, selectWord, extractLsb'_append_eq_of_add_le, extractLsb'_eq_self]

theorem status_nfull (s : State) : (status s).getLsbD 3 = nfull s := by
  simp only [status, selectWord, getLsbD_append]
  simp

theorem status_cphase (s : State) : (status s).extractLsb' 4 3 = s.cp.code := by
  simp (disch := decide) only [status, selectWord, extractLsb'_append_eq_of_add_le,
    extractLsb'_append_eq_of_le]
  simp

theorem status_reserved_low (s : State) : (status s).getLsbD 7 = false := by
  simp only [status, getLsbD_append]
  simp

theorem status_ready (s : State) : (status s).getLsbD 8 = ready s := by
  simp only [status, getLsbD_append]
  simp

theorem status_valid (s : State) : (status s).getLsbD 9 = valid s := by
  simp only [status, getLsbD_append]
  simp

theorem status_errBit (s : State) : (status s).getLsbD 10 = errBit s := by
  simp only [status, getLsbD_append]
  simp

theorem status_busy (s : State) : (status s).getLsbD 11 = busy s := by
  simp only [status, getLsbD_append]
  simp

theorem status_cause (s : State) : (status s).extractLsb' 12 4 = s.cause.bits := by
  simp (disch := decide) only [status, extractLsb'_append_eq_of_add_le, extractLsb'_append_eq_of_le]
  simp

theorem status_reserved_high (s : State) : (status s).extractLsb' 16 16 = 0 := by
  simp (disch := decide) only [status, extractLsb'_append_eq_of_le]
  simp

/-! ### A response as a word -/

theorem Response.word_err (r : Response) : r.word.getLsbD 32 = r.err := by
  simp only [Response.word, getLsbD_append]
  simp

theorem Response.word_data (r : Response) : r.word.extractLsb' 0 32 = r.data := by
  simp (disch := decide) only [Response.word, extractLsb'_append_eq_of_add_le, extractLsb'_eq_self]

/-! ### The state after reset -/

/-- R46: STATUS is computed from PP, CP, N and CAUSE. -/
theorem status_congr {s t : State} (hpp : t.pp = s.pp) (hcp : t.cp = s.cp) (hn : t.n = s.n)
    (hcause : t.cause = s.cause) : status t = status s := by
  simp only [status, selectWord, nfull, ready, valid, errBit, busy, hpp, hcp, hn, hcause]

/-- The table of R55 speaks of the engine only. -/
theorem SameEngine.engineReset {s t : State} (h : SameEngine s t) (hr : EngineReset s) : EngineReset t := by
  cases s
  cases t
  obtain ⟨rfl, rfl, rfl, rfl, rfl, rfl, rfl, rfl, rfl, rfl, rfl, rfl⟩ := h
  exact ⟨hr.pp, hr.cp, hr.t, hr.n, hr.q, hr.len, hr.cnt, hr.cause, hr.h, hr.v, hr.w, hr.b⟩

/-- The reset state is a wiped engine. -/
theorem reset_engineReset : EngineReset State.reset :=
  SameEngine.engineReset (s := wipe State.reset) (by constructor <;> rfl) (wipe_engineReset State.reset)

theorem EngineReset.status_eq_zero {t : State} (h : EngineReset t) : status t = 0 :=
  calc status t = status State.reset := status_congr h.pp h.cp (Fin.ext h.n) h.cause
    _ = 0 := by decide

/-! ### The obligations -/

/-- Settles O14: the reset state is a wiped engine, and STATUS is computed from fields the table of R55 fixes. -/
theorem stateAfterReset : Obligations.StateAfterReset :=
  ⟨reset_engineReset, rfl, fun _ h => h.status_eq_zero⟩

/-- Settles O15: one lemma per field of STATUS and of a response word. -/
theorem statusAndResponseLayout : Obligations.StatusAndResponseLayout := by
  refine ⟨fun s => ⟨status_phase s, ?nfull, status_cphase s, status_reserved_low s, ?ready, ?valid, ?err, ?busy, ?cause,
    status_reserved_high s, (status_selectWord s).symm⟩, fun r => ⟨r.word_err, r.word_data⟩⟩
  case nfull => rw [status_nfull, nfull_eq]
  case ready => rw [status_ready, ready_eq]
  case valid => rw [status_valid, valid_eq]
  case err => rw [status_errBit, errBit_eq]
  case busy => rw [status_busy, busy, PadPhase.busy_eq]
  case cause => rw [status_cause, Cause.bits_toNat]

end Sys2Proof.Machine
end

section
/-! PROOFS. The byte transport of a command word (R75). -/

namespace Sys2Proof

/-- R108: a command word is five bytes. -/
@[simp] theorem bytesOfCommand_length (cw : CommandWord) : (bytesOfCommand cw).length = 5 := rfl

theorem bytesOfCommand_head? (cw : CommandWord) : (bytesOfCommand cw).head? = some (opField cw) := rfl

/-- Adjacent bytes join from the last one up, each step adding the next eight bits. -/
theorem commandWord_eq_append_bytes (cw : CommandWord) :
    cw.extractLsb' 32 8 ++ (cw.extractLsb' 24 8 ++ (cw.extractLsb' 16 8 ++
      (cw.extractLsb' 8 8 ++ cw.extractLsb' 0 8))) = cw := by
  iterate 4 rw [BitVec.extractLsb'_append_extractLsb'_eq_extractLsb' (by rfl)]
  exact BitVec.extractLsb'_eq_self

/-- Reading undoes writing, whatever bytes follow: both take the bytes of `arg` in the same order (log 19). -/
theorem commandOfBytes_bytesOfCommand_append (cw : CommandWord) (rest : List Byte) :
    commandOfBytes (bytesOfCommand cw ++ rest) = some (cw, rest) :=
  congrArg (fun word => some (word, rest)) (commandWord_eq_append_bytes cw)

/-- Settles O6: the bytes are cut from the word at their places, the opcode's first, and joined again when read. -/
theorem opcodeByteFirst : Obligations.OpcodeByteFirst := fun cw rest =>
  ⟨bytesOfCommand_length cw, bytesOfCommand_head? cw, commandOfBytes_bytesOfCommand_append cw rest⟩

end Sys2Proof
end

section
/-! PROOFS. The decoder against the table of R103, and the illegal words and operands by numbers (R102, R104).

A row of the table is an opcode and a number of operand bits: a word matches it when its `op` is that opcode and its
`arg` fits the operand. The decoder's cases are these rows, and both obligations follow from that. -/

namespace Sys2Proof

/-! ### A row of the table by opcode and operand width -/

/-- The row of a command with opcode `op` and the low `bits` bits of `arg` as operand: all bits above the operand are
tested. -/
def commandRow (name : String) (op : BitVec 8) (bits : Nat) : CommandRow :=
  ⟨name, op ++ 0#32, BitVec.allOnes 40 <<< bits⟩

/-- R103: the opcode and the operand format of each row. -/
theorem commandTable_eq_rows : commandTable =
    [commandRow "NOP" 0#8 0, commandRow "START" 1#8 32, commandRow "PUSHB" 2#8 8, commandRow "RDB" 3#8 5,
      commandRow "RDW" 4#8 3, commandRow "RDS" 5#8 0, commandRow "ABORT" 6#8 0] := by decide

/-- A number with its low bits cleared is the multiple `c * p` exactly from `c * p` up to the next multiple. -/
theorem div_mul_eq_mul_iff (x c : Nat) {p : Nat} (hp : 0 < p) : x / p * p = c * p ↔ c * p ≤ x ∧ x < c * p + p := by
  rw [Nat.mul_left_inj hp.ne', Nat.div_eq_iff hp]
  omega

/-- Masking with a row's mask clears the operand bits; what is left is the pattern exactly if `op` is the row's opcode
and `arg` fits the operand. -/
theorem commandRow_matches_iff (cw : CommandWord) {name : String} {op : BitVec 8} {bits : Nat} (hbits : bits ≤ 32) :
    cw &&& (commandRow name op bits).mask = (commandRow name op bits).pattern ↔
      (opField cw).toNat = op.toNat ∧ (argField cw).toNat < 2 ^ bits := by
  have hmask : (cw &&& BitVec.allOnes 40 <<< bits).toNat = cw.toNat / 2 ^ bits * 2 ^ bits := by
    rw [← BitVec.shiftLeft_ushiftRight, BitVec.toNat_shiftLeft, BitVec.toNat_ushiftRight,
      Nat.shiftRight_eq_div_pow, Nat.shiftLeft_eq]
    exact Nat.mod_eq_of_lt ((Nat.div_mul_le_self _ _).trans_lt cw.isLt)
  have hpow : op.toNat * 2 ^ 32 = op.toNat * 2 ^ (32 - bits) * 2 ^ bits := by
    rw [Nat.mul_assoc, ← Nat.pow_add, Nat.sub_add_cancel hbits]
  have hpattern : (op ++ 0#32).toNat = op.toNat * 2 ^ 32 := by
    rw [BitVec.toNat_append, Nat.shiftLeft_eq, BitVec.toNat_ofNat, Nat.zero_mod, Nat.or_zero]
  have hle : 2 ^ bits ≤ 2 ^ 32 := Nat.pow_le_pow_right (by decide) hbits
  rw [commandRow, ← BitVec.toNat_inj, hmask, hpattern, hpow, div_mul_eq_mul_iff _ _ (Nat.two_pow_pos bits), ← hpow,
    opField_toNat, argField_toNat]
  omega

/-- A command of format Z has no operand bits: `arg` fits exactly if it is 0. -/
theorem argField_lt_two_pow_zero_iff (cw : CommandWord) : (argField cw).toNat < 2 ^ 0 ↔ argField cw = 0 := by
  rw [argField_eq_zero, argField_toNat, Nat.pow_zero, Nat.lt_one_iff]

/-! ### The decoder against the rows -/

/-- A word that decodes to a command matches the command's row. -/
theorem exists_row_of_decodeCommand {cw : CommandWord} {i : Instr} (h : decodeCommand cw = .instr i) :
    ∃ r ∈ commandTable, cw &&& r.mask = r.pattern ∧ r.mnemonic = i.mnemonic := by
  rcases decodeCommand_instr h with ⟨rfl, hop, harg⟩ | ⟨rfl, hop⟩ | ⟨rfl, hop, harg⟩ | ⟨rfl, hop, harg⟩ |
    ⟨rfl, hop, harg⟩ | ⟨rfl, hop, harg⟩ | ⟨rfl, hop, harg⟩
  · exact ⟨commandRow "NOP" 0#8 0, by decide,
      (commandRow_matches_iff cw (by decide)).mpr ⟨hop, (argField_lt_two_pow_zero_iff cw).mpr harg⟩, rfl⟩
  · exact ⟨commandRow "START" 1#8 32, by decide, (commandRow_matches_iff cw le_rfl).mpr ⟨hop, (argField cw).isLt⟩, rfl⟩
  · exact ⟨commandRow "PUSHB" 2#8 8, by decide,
      (commandRow_matches_iff cw (by decide)).mpr ⟨hop, (reserved_eq_zero _ rfl).mp harg⟩, rfl⟩
  · exact ⟨commandRow "RDB" 3#8 5, by decide,
      (commandRow_matches_iff cw (by decide)).mpr ⟨hop, (reserved_eq_zero _ rfl).mp harg⟩, rfl⟩
  · exact ⟨commandRow "RDW" 4#8 3, by decide,
      (commandRow_matches_iff cw (by decide)).mpr ⟨hop, (reserved_eq_zero _ rfl).mp harg⟩, rfl⟩
  · exact ⟨commandRow "RDS" 5#8 0, by decide,
      (commandRow_matches_iff cw (by decide)).mpr ⟨hop, (argField_lt_two_pow_zero_iff cw).mpr harg⟩, rfl⟩
  · exact ⟨commandRow "ABORT" 6#8 0, by decide,
      (commandRow_matches_iff cw (by decide)).mpr ⟨hop, (argField_lt_two_pow_zero_iff cw).mpr harg⟩, rfl⟩

/-- A word that matches a row decodes to the row's command. -/
theorem decodeCommand_of_matches {cw : CommandWord} {r : CommandRow} (hr : r ∈ commandTable)
    (h : cw &&& r.mask = r.pattern) : ∃ i, decodeCommand cw = .instr i ∧ i.mnemonic = r.mnemonic := by
  simp only [commandTable_eq_rows, List.mem_cons, List.not_mem_nil, or_false] at hr
  rcases hr with rfl | rfl | rfl | rfl | rfl | rfl | rfl <;>
    obtain ⟨hop, harg⟩ := (commandRow_matches_iff cw (by decide)).mp h
  · exact ⟨.nop, by simp [decodeCommand, hop, (argField_lt_two_pow_zero_iff cw).mp harg], rfl⟩
  · exact ⟨.start (argField cw), by simp [decodeCommand, hop], rfl⟩
  · exact ⟨.pushb ((argField cw).extractLsb' 0 8), by
      simp [decodeCommand, hop, (reserved_eq_zero (n := 24) _ rfl).mpr harg], rfl⟩
  · exact ⟨.rdb ((argField cw).extractLsb' 0 5), by
      simp [decodeCommand, hop, (reserved_eq_zero (n := 27) _ rfl).mpr harg], rfl⟩
  · exact ⟨.rdw ((argField cw).extractLsb' 0 3), by
      simp [decodeCommand, hop, (reserved_eq_zero (n := 29) _ rfl).mpr harg], rfl⟩
  · exact ⟨.rds, by simp [decodeCommand, hop, (argField_lt_two_pow_zero_iff cw).mp harg], rfl⟩
  · exact ⟨.abort, by simp [decodeCommand, hop, (argField_lt_two_pow_zero_iff cw).mp harg], rfl⟩

/-- A word is rejected exactly if it matches no row (R104). -/
theorem rejected_iff_no_row_matches (cw : CommandWord) :
    (∃ why, decodeCommand cw = .rejected why) ↔ ∀ r ∈ commandTable, cw &&& r.mask ≠ r.pattern := by
  constructor
  · rintro ⟨why, hwhy⟩ r hr hmatch
    obtain ⟨i, hi, -⟩ := decodeCommand_of_matches hr hmatch
    exact Decoded.noConfusion (hi.symm.trans hwhy)
  · intro hnone
    cases hdec : decodeCommand cw with
    | rejected why => exact ⟨why, rfl⟩
    | instr i =>
      obtain ⟨r, hr, hmatch, -⟩ := exists_row_of_decodeCommand hdec
      exact absurd hmatch (hnone r hr)

/-- The first matching row has the mnemonic of the command decoded, and there is none where nothing is decoded. -/
theorem decodeCommand_mnemonic_eq_find (cw : CommandWord) : (decodeCommand cw).toOption.map Instr.mnemonic =
    (commandTable.find? fun r => cw &&& r.mask == r.pattern).map CommandRow.mnemonic := by
  cases hfind : commandTable.find? fun r => cw &&& r.mask == r.pattern with
  | some r =>
    have hmatch := List.find?_some hfind
    obtain ⟨i, hi, hname⟩ := decodeCommand_of_matches (List.mem_of_find?_eq_some hfind) (beq_iff_eq.mp hmatch)
    simp [hi, Decoded.toOption, hname]
  | none =>
    have hnone (r) (hr : r ∈ commandTable) : cw &&& r.mask ≠ r.pattern := by
      simpa using List.find?_eq_none.mp hfind r hr
    obtain ⟨why, hwhy⟩ := (rejected_iff_no_row_matches cw).mpr hnone
    simp [hwhy, Decoded.toOption]

/-- No word matches two rows: it would decode to two commands, and the mnemonics of the rows differ. -/
theorem commandTable_disjoint : commandTable.Pairwise fun r r' =>
    ∀ cw : CommandWord, cw &&& r.mask = r.pattern → cw &&& r'.mask ≠ r'.pattern := by
  have hnames : commandTable.Pairwise fun r r' => r.mnemonic ≠ r'.mnemonic := by decide
  refine hnames.imp_of_mem fun {r r'} hr hr' hne cw hmatch hmatch' => hne ?_
  obtain ⟨i, hi, hname⟩ := decodeCommand_of_matches hr hmatch
  obtain ⟨i', hi', hname'⟩ := decodeCommand_of_matches hr' hmatch'
  obtain rfl : i = i' := Decoded.instr.inj (hi.symm.trans hi')
  exact hname.symm.trans hname'

/-- Settles O4: a word decodes to a command exactly if it matches the command's row. -/
theorem decoderFollowsTable : Obligations.DecoderFollowsTable :=
  ⟨decodeCommand_mnemonic_eq_find, commandTable_disjoint⟩

/-! ### Illegal words and operands by numbers -/

/-- R104: the illegal words by the numbers `op` and `arg`. -/
theorem rejected_iff_numbers (cw : CommandWord) : (∃ why, decodeCommand cw = .rejected why) ↔
    let op := cw.toNat / 2 ^ 32
    let arg := cw.toNat % 2 ^ 32
    7 ≤ op ∨ (op = 0 ∨ op = 5 ∨ op = 6) ∧ arg ≠ 0 ∨ op = 2 ∧ 2 ^ 8 ≤ arg ∨ op = 3 ∧ 2 ^ 5 ≤ arg ∨
      op = 4 ∧ 2 ^ 3 ≤ arg := by
  rw [rejected_iff_no_row_matches, commandTable_eq_rows]
  simp (disch := decide) only [List.forall_mem_cons, List.not_mem_nil, false_imp_iff, implies_true, and_true, ne_eq,
    commandRow_matches_iff, opField_toNat, argField_toNat, BitVec.toNat_ofNat]
  omega

/-- The low bits of `arg`, where the bits above them are 0, are the number `arg` (R102). -/
theorem operand_toNat (cw : CommandWord) {bits n : Nat} (h : bits + n = 32)
    (hreserved : (argField cw).extractLsb' bits n = 0) :
    ((argField cw).extractLsb' 0 bits).toNat = cw.toNat % 2 ^ 32 := by
  rw [BitVec.extractLsb'_toNat, Nat.shiftRight_zero, Nat.mod_eq_of_lt ((reserved_eq_zero _ h).mp hreserved),
    argField_toNat]

/-- Settles O5: the illegal words match no row, and the operand of a decoded command is `arg` or the bits of it below
reserved bits that are 0. -/
theorem illegalWordsAndOperands : Obligations.IllegalWordsAndOperands := by
  intro cw
  refine ⟨rejected_iff_numbers cw, fun len h => ?start, fun x h => ?pushb, fun j h => ?rdb, fun i h => ?rdw⟩
  case start =>
    obtain ⟨rfl, -⟩ := by simpa using decodeCommand_instr h
    exact argField_toNat cw
  case pushb =>
    obtain ⟨rfl, -, hreserved⟩ := by simpa using decodeCommand_instr h
    exact operand_toNat cw rfl hreserved
  case rdb =>
    obtain ⟨rfl, -, hreserved⟩ := by simpa using decodeCommand_instr h
    exact operand_toNat cw rfl hreserved
  case rdw =>
    obtain ⟨rfl, -, hreserved⟩ := by simpa using decodeCommand_instr h
    exact operand_toNat cw rfl hreserved

end Sys2Proof
end

section
/-! PROOFS. Rotation, shift and the mixing functions, bit by bit (R133 to R139). -/

namespace Sys2Proof.Machine

/-- R133: the bits that leave at the bottom enter at the top, so each bit comes from one of the two shifted words. -/
theorem rotr_getLsbD (x : Word) {n i : Nat} (hn : n < 32) (hi : i < 32) :
    (rotr x n).getLsbD i = x.getLsbD ((i + n) % 32) := by
  rw [rotr, BitVec.getLsbD_or, BitVec.getLsbD_ushiftRight, BitVec.getLsbD_shiftLeft, Nat.add_comm n i]
  by_cases h : i + n < 32
  · have hleft : i < 32 - n := by omega
    simp [hleft, Nat.mod_eq_of_lt h]
  · have hleft : ¬ i < 32 - n := by omega
    have hright : x.getLsbD (i + n) = false := BitVec.getLsbD_of_ge x _ (by omega)
    have hmod : (i + n) % 32 = i - (32 - n) := by omega
    simp [hi, hleft, hright, hmod]

/-- R134: zeros enter at the top. -/
theorem shr_getLsbD (x : Word) (n i : Nat) :
    (shr x n).getLsbD i = (decide (i + n ≤ 31) && x.getLsbD (i + n)) := by
  rw [shr, BitVec.getLsbD_ushiftRight, Nat.add_comm n i]
  by_cases h : i + n ≤ 31
  · simp [h]
  · simp [h, BitVec.getLsbD_of_ge x (i + n) (by omega)]

theorem ssig0_getLsbD (x : Word) {i : Nat} (hi : i < 32) : (ssig0 x).getLsbD i =
    (x.getLsbD ((i + 7) % 32) ^^ x.getLsbD ((i + 18) % 32) ^^ (decide (i + 3 ≤ 31) && x.getLsbD (i + 3))) := by
  simp only [ssig0, BitVec.getLsbD_xor, rotr_getLsbD, shr_getLsbD, hi, Nat.reduceLT]

theorem ssig1_getLsbD (x : Word) {i : Nat} (hi : i < 32) : (ssig1 x).getLsbD i =
    (x.getLsbD ((i + 17) % 32) ^^ x.getLsbD ((i + 19) % 32) ^^ (decide (i + 10 ≤ 31) && x.getLsbD (i + 10))) := by
  simp only [ssig1, BitVec.getLsbD_xor, rotr_getLsbD, shr_getLsbD, hi, Nat.reduceLT]

theorem bsig0_getLsbD (x : Word) {i : Nat} (hi : i < 32) : (bsig0 x).getLsbD i =
    (x.getLsbD ((i + 2) % 32) ^^ x.getLsbD ((i + 13) % 32) ^^ x.getLsbD ((i + 22) % 32)) := by
  simp only [bsig0, BitVec.getLsbD_xor, rotr_getLsbD, hi, Nat.reduceLT]

theorem bsig1_getLsbD (x : Word) {i : Nat} (hi : i < 32) : (bsig1 x).getLsbD i =
    (x.getLsbD ((i + 6) % 32) ^^ x.getLsbD ((i + 11) % 32) ^^ x.getLsbD ((i + 25) % 32)) := by
  simp only [bsig1, BitVec.getLsbD_xor, rotr_getLsbD, hi, Nat.reduceLT]

theorem ch_getLsbD (x y z : Word) {i : Nat} (hi : i < 32) :
    (ch x y z).getLsbD i = if x.getLsbD i then y.getLsbD i else z.getLsbD i := by
  rw [ch, BitVec.getLsbD_xor, BitVec.getLsbD_and, BitVec.getLsbD_and, BitVec.getLsbD_not]
  cases x.getLsbD i <;> simp [hi]

/-- The exclusive-or of the three pairwise conjunctions is the majority. -/
theorem xor_pairwise_and_iff_two_le (a b c : Bool) :
    (((a && b) ^^ (a && c)) ^^ (b && c)) = true ↔ 2 ≤ a.toNat + b.toNat + c.toNat := by
  revert a b c
  decide

theorem maj_getLsbD_iff (x y z : Word) (i : Nat) : (maj x y z).getLsbD i = true ↔
    2 ≤ (x.getLsbD i).toNat + (y.getLsbD i).toNat + (z.getLsbD i).toNat := by
  rw [← xor_pairwise_and_iff_two_le, maj]
  simp only [BitVec.getLsbD_xor, BitVec.getLsbD_and]

/-- Settles O49: the six functions from the bits of rotation and shift. -/
theorem mixingFunctionsBitByBit : Obligations.MixingFunctionsBitByBit :=
  ⟨fun x n i _ hn hi => ⟨rotr_getLsbD x hn hi, shr_getLsbD x n i⟩,
    fun x _ hi => ⟨ssig0_getLsbD x hi, ssig1_getLsbD x hi, bsig0_getLsbD x hi, bsig1_getLsbD x hi⟩,
    fun x y z i hi => ⟨ch_getLsbD x y z hi, maj_getLsbD_iff x y z i⟩⟩

end Sys2Proof.Machine
end

section
/-! PROOFS. The constant tables against the roots of the first primes (R140, R141). -/

namespace Sys2Proof.Machine

/-- The 64 primes below 312, in order. -/
def firstPrimes : List Nat :=
  [2, 3, 5, 7, 11, 13, 17, 19, 23, 29, 31, 37, 41, 43, 47, 53, 59, 61, 67, 71, 73, 79, 83, 89, 97, 101, 103, 107, 109,
    113, 127, 131, 137, 139, 149, 151, 157, 163, 167, 173, 179, 181, 191, 193, 197, 199, 211, 223, 227, 229, 233, 239,
    241, 251, 257, 263, 269, 271, 277, 281, 283, 293, 307, 311]

/-- `x` is the first 32 bits of the fractional part of the `e`-th root of `p`, whose whole part is below 8: scaled by
2^32, the root lies from `c * 2^32 + x` to just below one more. -/
def IsRootFraction (e p : Nat) (x : Word) : Prop :=
  ∃ c, c < 8 ∧ (c * 2 ^ 32 + x.toNat) ^ e ≤ p * 2 ^ (32 * e) ∧ p * 2 ^ (32 * e) < (c * 2 ^ 32 + x.toNat + 1) ^ e

/-- Trial division leaves these numbers and no others. -/
theorem trialDivision_eq_firstPrimes :
    ((List.range 312).filter fun p => decide (2 ≤ p) && (List.range p).all fun d => decide (d < 2) || p % d != 0) =
      firstPrimes := by
  decide +kernel

theorem roundK_isRootFraction : ∀ t, t < 64 → IsRootFraction 3 (firstPrimes.getD t 0) (roundK t) := by
  unfold IsRootFraction
  decide +kernel

theorem initialHash_isRootFraction : ∀ i : Fin 8, IsRootFraction 2 (firstPrimes.getD i.val 0) initialHash[i] := by
  unfold IsRootFraction
  decide +kernel

/-- Settles O50: the primes are found by trial division, then each entry is checked against its root's bounds. -/
theorem constantTables : Obligations.ConstantTables := by
  unfold Obligations.ConstantTables
  rw [trialDivision_eq_firstPrimes]
  exact ⟨rfl, roundK_isRootFraction, initialHash_isRootFraction⟩

end Sys2Proof.Machine
end

section
/-! PROOFS. The padded message (R143), the schedule of a block (R146) and the digest as bytes (R149). -/

namespace Sys2Proof.Machine

/-! ### The padded message -/

/-- A byte of the length field as a quotient of the number it is cut from. -/
theorem lengthByte_ofNat {x : Nat} (hx : x < 2 ^ 64) (q : Nat) :
    lengthByte (BitVec.ofNat 64 x) q = BitVec.ofNat 8 (x / 2 ^ (56 - 8 * q)) := by
  apply BitVec.eq_of_toNat_eq
  rw [lengthByte, BitVec.extractLsb'_toNat, BitVec.toNat_ofNat, BitVec.toNat_ofNat, Nat.mod_eq_of_lt hx,
    Nat.shiftRight_eq_div_pow]

/-- R143: with `z` zero bytes the length before the length field is 56 modulo 64. -/
theorem zeroCount_spec (l : Nat) : (l + 1 + zeroCount l) % 64 = 56 := by
  unfold zeroCount
  omega

/-- R143: no smaller number of zero bytes does it. -/
theorem zeroCount_le {l y : Nat} (h : (l + 1 + y) % 64 = 56) : zeroCount l ≤ y := by
  unfold zeroCount
  omega

/-- Settles O51: the zero run is `zeroCount`, and 8 times a length below 2^32 fits the length field. -/
theorem paddingShape : Obligations.PaddingShape := by
  intro m hm
  refine ⟨zeroCount m.length, ?_, zeroCount_spec _, fun _ => zeroCount_le⟩
  have hbits : 8 * m.length < 2 ^ 64 := by omega
  rw [pad, be64, funext (lengthByte_ofNat hbits)]

/-! ### The schedule -/

/-- Settles O53: the first sixteen words are the block's, as numbers, and each later one is the recurrence's. -/
theorem scheduleRecurrence : Obligations.ScheduleRecurrence := by
  refine fun blk => ⟨scheduleWords_length blk 48, fun t ht => ?_, fun _ => schedule_getD_expand blk⟩
  rw [schedule_getD_block blk ht, blockWord, wordOfBytes_toNat]

/-! ### The digest -/

@[simp] theorem be32_length (x : Word) : (be32 x).length = 4 := rfl

theorem be32_getD (x : Word) {k : Nat} (hk : k < 4) : (be32 x).getD k 0 = wordByte x k :=
  match k, hk with
  | 0, _ | 1, _ | 2, _ | 3, _ => rfl

/-- Four bytes a word: byte `j` of the words laid end to end is byte `j mod 4` of word `j div 4`. -/
theorem flatMap_be32_getD (ws : List Word) {j : Nat} (hj : j < 4 * ws.length) :
    (ws.flatMap be32).getD j 0 = wordByte (ws.getD (j / 4) 0) (j % 4) := by
  induction ws generalizing j with
  | nil => simp at hj
  | cons x xs ih =>
    rw [List.flatMap_cons]
    by_cases h : j < 4
    · rw [List.getD_append _ _ _ _ h, be32_getD x h, Nat.div_eq_of_lt h, Nat.mod_eq_of_lt h, List.getD_cons_zero]
    · obtain ⟨k, rfl⟩ : ∃ k, j = k + 4 := ⟨j - 4, by omega⟩
      rw [List.getD_append_right _ _ _ _ (by simp), be32_length, Nat.add_sub_cancel,
        ih (by rw [List.length_cons] at hj; omega), Nat.add_div_right k (by decide), Nat.add_mod_right,
        List.getD_cons_succ]

@[simp] theorem ser_length (s : Vector Word 8) : (ser s).length = 32 := by
  simp [ser, List.length_flatMap]

/-- R149, a byte of the serialised words. -/
theorem ser_getD (s : Vector Word 8) {j : Nat} {i : Fin 8} (h : j / 4 = i.val) :
    (ser s).getD j 0 = wordByte s[i] (j % 4) := by
  have hj : j < 4 * s.toList.length := by rw [Vector.length_toList]; omega
  rw [ser, flatMap_be32_getD _ hj, h]
  simp [List.getD_eq_getElem?_getD]

/-- Settles O54: `compute` serialises the hash state after the last block. -/
theorem digestSerialisation : Obligations.DigestSerialisation :=
  fun _ => ⟨ser_length _, fun _ _ h => ser_getD _ h⟩

end Sys2Proof.Machine
end

section
/-! PROOFS. The padding controller's micro-operations (spec/41_padding.md): P80, P00, PLEN, DISP. -/

namespace Sys2Proof.Machine

/-! ### The zero run -/

/-- R161, R162: a byte of the zero run, or the 0x80 before it. PP goes to PADLEN with Q = 0 where the byte brings N to
56, and elsewhere to the phase `p` names. -/
theorem appendByte_zeroRun {s : State} (x : Byte) (p : State → PadPhase) (hn : s.n.val < 64) :
    appendByte x (fun s' => if s'.n.val = 56 then { s' with pp := .padlen, q := 0 } else { s' with pp := p s' }) s =
      .next { s with
        b := s.b.write s.n.val x
        n := s.n + 1
        pp := if s.n.val + 1 = 56 then .padlen else p (storeByte x s)
        q := if s.n.val + 1 = 56 then 0 else s.q } := by
  rw [appendByte_of_room x _ hn, storeByte_n_val x hn]
  by_cases h56 : s.n.val + 1 = 56
  · simp only [if_pos h56]
    rfl
  · simp only [if_neg h56]
    rfl

/-! ### The length field -/

/-- R72: byte `q` of the bit length, as a quotient of the number 8·LEN, which fits 64 bits. -/
theorem lengthByte_bitLen (len : Word) (q : Nat) :
    lengthByte (bitLen len) q = BitVec.ofNat 8 (8 * len.toNat / 2 ^ (56 - 8 * q)) := by
  have hbits : 8 * len.toNat < 2 ^ 64 := by omega
  rw [bitLen_eq rfl, lengthByte_ofNat hbits]

/-- R163: while bytes of the length field are missing, `PLEN` appends the next one and counts it. -/
theorem exec_plen_of_missing {s : State} (hq : s.q.val < 8) : exec .plen s =
    appendByte (lengthByte (bitLen s.len) s.q.val) (fun s' => { s' with q := s'.q + 1 }) s := if_pos hq

/-! ### The obligations -/

/-- Settles O26: the byte before the zero run; PAD00 follows unless the run is empty. -/
theorem p80Result : Obligations.P80Result := fun _ hn => appendByte_zeroRun 0x80 (fun _ => .pad00) hn

/-- Settles O27: a byte of the zero run; PP stays until the run ends. -/
theorem p00Result : Obligations.P00Result := fun _ hn => appendByte_zeroRun 0x00 State.pp hn

/-- Settles O28: the byte appended is byte Q of the number 8·LEN. -/
theorem plenResult : Obligations.PlenResult := by
  intro s hn hq
  rw [exec_plen_of_missing hq, appendByte_of_room _ _ hn, lengthByte_bitLen]
  rfl

/-- Settles O29: `DISP` is the two assignments of R164. -/
theorem dispResult : Obligations.DispResult := fun _ => rfl

end Sys2Proof.Machine
end

section
/-! PROOFS. The message scheduler's micro-operations (spec/42_schedule.md): LDW, EXP. -/

namespace Sys2Proof.Machine

/-! ### The operands, where the cells are written -/

/-- R71: four written bytes read as their big-endian word. -/
theorem memRead4_of_some {s : State} {a : Nat} {b0 b1 b2 b3 : Byte} (h0 : s.b.read a = some b0)
    (h1 : s.b.read (a + 1) = some b1) (h2 : s.b.read (a + 2) = some b2) (h3 : s.b.read (a + 3) = some b3) :
    memRead4 s a = wordOfBytes b0 b1 b2 b3 := by
  rw [memRead4, readB_of_some h0, readB_of_some h1, readB_of_some h2, readB_of_some h3]

/-- `W[T - d]` is the word in the cell `d` places below T. -/
theorem readWBack_of_some {s : State} {d : Nat} {i : Fin 64} {x : Word} (hi : i.val + d = s.t.val)
    (hx : s.w[i] = some x) : readWBack s d = x := by
  obtain rfl : i = ⟨s.t.val - d, Nat.lt_of_le_of_lt (Nat.sub_le s.t.val d) s.t.isLt⟩ :=
    Fin.ext (Nat.eq_sub_of_add_eq hi)
  exact readW_of_some hx

/-! ### The micro-operations inside their index ranges -/

/-- R180: the first sixteen words are loaded from the block. -/
theorem exec_ldw_of_lt {s : State} (ht : s.t.val < 16) : exec .ldw s = .next { s with
    w := s.w.set s.t.val (some (memRead4 s (4 * s.t.val)))
    cp := if s.t.val = 15 then .expand else s.cp
    t := s.t + 1 } := if_pos ht

/-- R181: the later words are expanded from the earlier ones. -/
theorem exec_exp_of_le {s : State} (ht : 16 ≤ s.t.val) : exec .exp s = .next { s with
    w := s.w.set s.t.val
      (some (expandWord (readWBack s 2) (readWBack s 7) (readWBack s 15) (readWBack s 16)))
    cp := if s.t.val = 63 then .init else s.cp
    t := if s.t.val = 63 then 0 else s.t + 1 } := if_pos ht

/-! ### The obligations -/

/-- Settles O31: the word written is the one read from the block, and a big-endian word is known as a number. -/
theorem ldwResult : Obligations.LdwResult := by
  intro s ht
  refine ⟨_, exec_ldw_of_lt ht, fun b0 b1 b2 b3 h0 h1 h2 h3 => ?_⟩
  rw [memRead4_of_some h0 h1 h2 h3, wordOfBytes_toNat]

/-- Settles O32: the word written is `expandWord` of the four words read back, which is the recurrence's sum. -/
theorem expResult : Obligations.ExpResult := by
  intro s ht
  refine ⟨_, exec_exp_of_le ht, fun i2 i7 i15 i16 w2 w7 w15 w16 h2 h7 h15 h16 e2 e7 e15 e16 => ?_⟩
  rw [readWBack_of_some h2 e2, readWBack_of_some h7 e7, readWBack_of_some h15 e15, readWBack_of_some h16 e16,
    expandWord]

end Sys2Proof.Machine
end

section
/-! PROOFS. The compression function's micro-operations (spec/43_compression.md): INITV, RND, FOLD. -/

namespace Sys2Proof.Machine

/-! ### The operands, where the cells are written -/

theorem hashWords_getElem_of_some {s : State} {i : Fin 8} {x : Word} (hx : s.h[i] = some x) : (hashWords s)[i] = x :=
  (hashWords_getElem s i.val i.isLt).trans (readH_of_some hx)

theorem workingWords_getElem_of_some {s : State} {i : Fin 8} {x : Word} (hx : s.v[i] = some x) :
    (workingWords s)[i] = x :=
  (workingWords_getElem s i.val i.isLt).trans (readV_of_some hx)

/-- R194: each word of the add-back is the sum of two written cells, its carry dropped. -/
theorem addBack_toNat_of_some {s : State} {i : Fin 8} {y z : Word} (hy : s.h[i] = some y) (hz : s.v[i] = some z) :
    (addWords (hashWords s) (workingWords s))[i].toNat = (y.toNat + z.toNat) % 2 ^ 32 := by
  have hsum : (addWords (hashWords s) (workingWords s))[i] = (hashWords s)[i] + (workingWords s)[i] :=
    addWords_getElem (hashWords s) (workingWords s) i.val i.isLt
  rw [hsum, hashWords_getElem_of_some hy, workingWords_getElem_of_some hz, BitVec.toNat_add]

/-! ### The micro-operations in every state -/

/-- R190: the working variables become the hash words as read, and the rounds start at T = 0. -/
theorem exec_initv (s : State) : exec .initv s = .next { s with
    v := someWords (hashWords s)
    cp := .round
    t := 0 } := rfl

/-- R191: the working variables become those of `round`, every one computed from the old ones. -/
theorem exec_rnd (s : State) : exec .rnd s = .next { s with
    v := someWords (round (workingWords s) (roundK s.t.val) (readW s s.t))
    cp := if s.t.val = 63 then .fold else s.cp
    t := if s.t.val = 63 then 0 else s.t + 1 } := rfl

/-- R194: the hash state takes the add-back, and the block buffer is released. -/
theorem exec_fold (s : State) : exec .fold s = .next { s with
    h := someWords (addWords (hashWords s) (workingWords s))
    n := 0
    cp := .cidle
    pp := if s.pp = .padlen ∧ s.q.val = 8 then .done else s.pp } := rfl

/-- R142, R191: the eight results of `round` with its two wires written out. -/
theorem someWords_round (v : Vector Word 8) (k w : Word) :
    someWords (round v k w) =
      (let t1 := v[7] + bsig1 v[4] + ch v[4] v[5] v[6] + k + w
       let t2 := bsig0 v[0] + maj v[0] v[1] v[2]
       #v[some (t1 + t2), some v[0], some v[1], some v[2], some (v[3] + t1), some v[4], some v[5], some v[6]]) := rfl

/-! ### The obligations -/

/-- Settles O33: the words copied are the hash words as read, and a written cell reads as its content. -/
theorem initvResult : Obligations.InitvResult :=
  fun s => ⟨hashWords s, exec_initv s, fun _ _ => hashWords_getElem_of_some⟩

/-- Settles O34: a..h are the old working variables as read, and w is W[T] as read. -/
theorem rndResult : Obligations.RndResult := by
  intro s
  refine ⟨(workingWords s)[0], (workingWords s)[1], (workingWords s)[2], (workingWords s)[3], (workingWords s)[4],
    (workingWords s)[5], (workingWords s)[6], (workingWords s)[7], readW s s.t, ?step,
    fun _ => workingWords_getElem_of_some (i := 0), fun _ => workingWords_getElem_of_some (i := 1),
    fun _ => workingWords_getElem_of_some (i := 2), fun _ => workingWords_getElem_of_some (i := 3),
    fun _ => workingWords_getElem_of_some (i := 4), fun _ => workingWords_getElem_of_some (i := 5),
    fun _ => workingWords_getElem_of_some (i := 6), fun _ => workingWords_getElem_of_some (i := 7),
    fun _ => readW_of_some⟩
  case step => rw [exec_rnd, someWords_round]

/-- Settles O35: the words written are the add-back of the hash words and the working variables as read. -/
theorem foldResult : Obligations.FoldResult :=
  fun s => ⟨addWords (hashWords s) (workingWords s), exec_fold s, fun _ _ _ => addBack_toNat_of_some⟩

end Sys2Proof.Machine
end

section
/-! PROOFS. The host commands (spec/44_host_commands.md): NOP, START, PUSHB, RDB, RDW, RDS, ABORT. Each obligation reads
its command's row of the disposition table (R211) cell by cell; what is left is what the command does when accepted. -/

namespace Sys2Proof.Machine

/-! ### The disposition table row by row (R211) -/

/-- R247: in FAULT every command is rejected but NOP, RDS and ABORT. -/
theorem disposition_reject_of_fault {c : CommandKind} (hc : c ≠ .always) {pp : PadPhase} (cp : CorePhase) (n : Fin 65)
    (h : pp = .fault) : disposition c pp cp n = .reject := by
  subst h
  cases c with
  | always => exact absurd rfl hc
  | start | push | read | illegal => rfl

theorem disposition_start_accept {pp : PadPhase} (cp : CorePhase) (n : Fin 65) (h : pp = .idle ∨ pp = .done) :
    disposition .start pp cp n = .accept := by
  rcases h with rfl | rfl <;> rfl

theorem disposition_start_fault {pp : PadPhase} (cp : CorePhase) (n : Fin 65) (h : pp = .recv) :
    disposition .start pp cp n = .fault .startWhileReceiving := by
  subst h
  rfl

theorem disposition_start_hold {pp : PadPhase} (cp : CorePhase) (n : Fin 65)
    (h : pp = .pad80 ∨ pp = .pad00 ∨ pp = .padlen) : disposition .start pp cp n = .hold := by
  rcases h with rfl | rfl | rfl <;> rfl

/-- R213: in RECV the core and the room in the buffer decide between accepting a byte and holding it. -/
theorem disposition_push_accept {pp : PadPhase} {cp : CorePhase} {n : Fin 65} (h : pp = .recv) (hcp : cp = .cidle)
    (hn : n.val < 64) : disposition .push pp cp n = .accept := by
  subst h
  exact if_pos ⟨hcp, hn⟩

theorem disposition_push_hold {pp : PadPhase} {cp : CorePhase} {n : Fin 65} (h : pp = .recv)
    (hwait : cp ≠ .cidle ∨ n.val = 64) : disposition .push pp cp n = .hold := by
  subst h
  refine if_neg fun ⟨hcp, hn⟩ => ?_
  rcases hwait with hbusy | hfull
  · exact hbusy hcp
  · omega

theorem disposition_push_fault {pp : PadPhase} (cp : CorePhase) (n : Fin 65)
    (h : pp = .idle ∨ pp = .pad80 ∨ pp = .pad00 ∨ pp = .padlen ∨ pp = .done) :
    disposition .push pp cp n = .fault .pushUnexpected := by
  rcases h with rfl | rfl | rfl | rfl | rfl <;> rfl

theorem disposition_read_accept {pp : PadPhase} (cp : CorePhase) (n : Fin 65) (h : pp = .done) :
    disposition .read pp cp n = .accept := by
  subst h
  rfl

theorem disposition_read_fault {pp : PadPhase} (cp : CorePhase) (n : Fin 65) (h : pp = .idle ∨ pp = .recv) :
    disposition .read pp cp n = .fault .readNoDigest := by
  rcases h with rfl | rfl <;> rfl

theorem disposition_read_hold {pp : PadPhase} (cp : CorePhase) (n : Fin 65)
    (h : pp = .pad80 ∨ pp = .pad00 ∨ pp = .padlen) : disposition .read pp cp n = .hold := by
  rcases h with rfl | rfl | rfl <;> rfl

/-! ### What an accepted command does -/

/-- A command of the row that accepts in every phase is performed whatever the state. -/
theorem processCommand_always (f : State → Result) (s : State) : processCommand .always f s = f s :=
  processCommand_accept f rfl

/-- R210: the hash state takes the initial values, here as written in the rule. -/
theorem someWords_initialHash : someWords initialHash =
    #v[some 0x6a09e667, some 0xbb67ae85, some 0x3c6ef372, some 0xa54ff53a, some 0x510e527f, some 0x9b05688c,
      some 0x1f83d9ab, some 0x5be0cd19] := rfl

/-! ### Reading the digest -/

/-- R73, R214: a byte of a word, zero-extended, is the shifted word with only its low eight bits kept. -/
theorem wordByte_setWidth (x : Word) (k : Nat) : (wordByte x k).setWidth 32 = (x >>> (8 * (3 - k))) &&& 0xFF := by
  apply BitVec.eq_of_toNat_eq
  have hbyte := ((x >>> (8 * (3 - k))).setWidth 8).isLt
  rw [wordByte, BitVec.toNat_and, BitVec.toNat_setWidth, Nat.mod_eq_of_lt (by omega), BitVec.toNat_setWidth]
  exact (Nat.and_two_pow_sub_one_eq_mod _ 8).symm

/-- R73: byte `j` of the digest is byte `j mod 4` of the hash word `j div 4`, where that word is written. -/
theorem digestByte_of_some {s : State} {j : BitVec 5} {i : Fin 8} {x : Word} (hi : i.val = j.toNat / 4)
    (hx : s.h[i] = some x) : digestByte s j = wordByte x (j.toNat % 4) := by
  obtain rfl : i = ⟨j.toNat / 4, Nat.div_lt_of_lt_mul j.isLt⟩ := Fin.ext hi
  rw [digestByte, readH_of_some hx]

/-- The row of the reads outside DONE, whatever the read would answer (R214, R215). -/
theorem processCommand_read_outside_done (f : State → Result) (s : State) :
    (s.pp = .idle ∨ s.pp = .recv → processCommand .read f s = .next (takeFault .readNoDigest s)) ∧
    (s.pp = .pad80 ∨ s.pp = .pad00 ∨ s.pp = .padlen → processCommand .read f s = .next s) ∧
    (s.pp = .fault → processCommand .read f s = .next (respond true s.cause.code s)) :=
  ⟨fun h => processCommand_fault f (disposition_read_fault s.cp s.n h),
    fun h => processCommand_hold f (disposition_read_hold s.cp s.n h),
    fun h => processCommand_reject f (disposition_reject_of_fault (by decide) s.cp s.n h)⟩

/-! ### The obligations -/

/-- Settles O16: `NOP` answers ok(0) and does nothing else. -/
theorem nopResult : Obligations.NopResult :=
  ⟨rfl, fun s => (exec_nop s).trans (processCommand_always _ s)⟩

/-- Settles O17: the answer is computed from the state the command finds. -/
theorem rdsResult : Obligations.RdsResult :=
  fun s => (exec_rds s).trans (processCommand_always _ s)

/-- Settles O18: the state is a wiped engine, to which the answer is appended. -/
theorem abortResult : Obligations.AbortResult := fun s =>
  ⟨returnFromFault s, (exec_abort s).trans (processCommand_always _ s),
    SameEngine.engineReset (respond_sameEngine false 0 (wipe s)) (wipe_engineReset s), rfl, rfl, rfl, rfl⟩

/-- Settles O19: each phase is a cell of the `START` row. -/
theorem startResult : Obligations.StartResult := by
  intro s len
  rw [exec_start]
  refine ⟨fun h => ?accept, fun h => ?fault, fun h => ?hold, fun h => ?reject⟩
  case accept =>
    rw [processCommand_accept _ (disposition_start_accept s.cp s.n h), startComputation, setH, someWords_initialHash]
    rfl
  case fault => exact processCommand_fault _ (disposition_start_fault s.cp s.n h)
  case hold => exact processCommand_hold _ (disposition_start_hold s.cp s.n h)
  case reject => exact processCommand_reject _ (disposition_reject_of_fault (by decide) s.cp s.n h)

/-- Settles O20: each phase is a cell of the `PUSHB` row; in RECV the core and the room in the buffer decide. -/
theorem pushbResult : Obligations.PushbResult := by
  intro s x
  rw [exec_pushb]
  refine ⟨fun h hcp hn => ?accept, fun h hwait => ?hold, fun h => ?fault, fun h => ?reject⟩
  case accept =>
    rw [processCommand_accept _ (disposition_push_accept h hcp hn), appendByte_of_room x _ hn, ← h]
    rfl
  case hold => exact processCommand_hold _ (disposition_push_hold h hwait)
  case fault => exact processCommand_fault _ (disposition_push_fault s.cp s.n h)
  case reject => exact processCommand_reject _ (disposition_reject_of_fault (by decide) s.cp s.n h)

/-- Settles O21: outside DONE the row of the reads; in DONE a written hash word gives its byte. -/
theorem rdbResult : Obligations.RdbResult := by
  intro s j
  rw [exec_rdb]
  refine ⟨fun h => ⟨_, processCommand_accept _ (disposition_read_accept s.cp s.n h), fun i x hi hx => ?byte⟩,
    processCommand_read_outside_done _ s⟩
  case byte => rw [digestByte_of_some hi hx, wordByte_setWidth]

/-- Settles O22: outside DONE the row of the reads; in DONE a written hash word reads as its content. -/
theorem rdwResult : Obligations.RdwResult := by
  intro s k
  rw [exec_rdw]
  refine ⟨fun h => ⟨_, processCommand_accept _ (disposition_read_accept s.cp s.n h), fun i x hi hx => ?word⟩,
    processCommand_read_outside_done _ s⟩
  case word =>
    obtain rfl : i = ⟨k.toNat, k.isLt⟩ := Fin.ext hi
    exact readH_of_some hx

end Sys2Proof.Machine
end

section
/-! PROOFS. The protocol faults (spec/60_exceptions.md): an illegal word at the port, fault entry (R246), and what FAULT
rejects (R247). -/

namespace Sys2Proof.Machine

/-! ### An illegal word at the port (R245) -/

theorem disposition_illegal_fault {pp : PadPhase} (cp : CorePhase) (n : Fin 65) (h : pp ≠ .fault) :
    disposition .illegal pp cp n = .fault .illegalCmd := by
  cases pp with
  | fault => exact absurd rfl h
  | idle | recv | pad80 | pad00 | padlen | done => rfl

theorem execIllegal_of_not_fault {s : State} (h : s.pp ≠ .fault) : execIllegal s = .next (takeFault .illegalCmd s) :=
  processCommand_fault _ (disposition_illegal_fault s.cp s.n h)

/-- R107, R218: on the command's turn the word at the port is decoded, whatever the engine is doing. -/
theorem fetch_command_rejected {s : State} {cw : CommandWord} {why : Rejection} (hport : s.port = some cw)
    (hdecode : decodeCommand cw = .rejected why) : fetch .command s = .illegal := by
  simp [fetch, hport, hdecode]

theorem step_command_rejected {s : State} {rest : List Turn} {cw : CommandWord} {why : Rejection}
    (hsched : s.sched = .command :: rest) (hport : s.port = some cw) (hdecode : decodeCommand cw = .rejected why) :
    step s = execIllegal { s with sched := rest } := by
  have hturn : nextTurn s = .command := by rw [nextTurn, hsched]
  have hrest : consumeTurn s = { s with sched := rest } := by rw [consumeTurn, hsched, List.tail_cons]
  rw [step, hturn, fetch_command_rejected hport hdecode, hrest, perform]

/-! ### In FAULT (R247) -/

theorem processCommand_in_fault {c : CommandKind} (hc : c ≠ .always) (f : State → Result) {s : State}
    (h : s.pp = .fault) : processCommand c f s = .next (respond true s.cause.code s) :=
  processCommand_reject f (disposition_reject_of_fault hc s.cp s.n h)

theorem execIllegal_in_fault {s : State} (h : s.pp = .fault) :
    execIllegal s = .next (respond true s.cause.code s) :=
  processCommand_in_fault (by decide) _ h

/-- R46, R247: in FAULT only PHASE, ERR and CAUSE are not 0, as long as the core is idle and the block is not full. -/
theorem status_of_fault {s : State} (hpp : s.pp = .fault) (hcp : s.cp = .cidle) (hn : s.n.val < 64) :
    status s = s.cause.code <<< 12 ||| 0x406 := by
  have hnfull : nfull s = false := decide_eq_false hn.ne
  have hready : ready s = false := by simp [ready_eq, hpp]
  rw [status, selectWord, hnfull, hready, valid_eq, errBit_eq, busy, hpp, hcp]
  cases s.cause <;> decide

/-! ### The obligations -/

/-- Settles O11: the word is decoded on its turn, and the row of illegal words faults in every phase but FAULT. -/
theorem illegalWordFaults : Obligations.IllegalWordFaults := by
  intro s rest cw why hsched hport hdecode hpp
  rw [step_command_rejected hsched hport hdecode]
  exact execIllegal_of_not_fault hpp

/-- Settles O23: each command's faulting cells of the table lead to the one operation `takeFault`. -/
theorem faultEntry : Obligations.FaultEntry := by
  intro s faultWith hwith
  have htake (k : Cause) : Host.Outcome.next (takeFault k s) = (.next (faultWith k k.code) : Result) := by
    rw [hwith, takeFault_eq]
  refine ⟨fun h x => ?push, fun h len => ?start, fun h => ⟨fun j => ?rdb, fun i => ?rdw⟩,
    fun h cw why hport hdecode => ?illegal⟩
  case push => rw [exec_pushb, processCommand_fault _ (disposition_push_fault s.cp s.n h), htake, Cause.code]
  case start => rw [exec_start, processCommand_fault _ (disposition_start_fault s.cp s.n h), htake, Cause.code]
  case rdb => rw [exec_rdb, processCommand_fault _ (disposition_read_fault s.cp s.n h), htake, Cause.code]
  case rdw => rw [exec_rdw, processCommand_fault _ (disposition_read_fault s.cp s.n h), htake, Cause.code]
  case illegal =>
    rw [fetch_command_rejected hport hdecode, perform, execIllegal_of_not_fault h, htake, Cause.code]

/-- Settles O25: the table rejects every row but that of NOP, RDS and ABORT; an illegal word is such a row too. -/
theorem rejectedInFault : Obligations.RejectedInFault := by
  rintro s hpp _ rfl
  refine ⟨fun len => ?start, fun x => ?push, fun j => ?rdb, fun i => ?rdw,
    fun rest cw why hsched hport hdecode => ?illegal, status_of_fault hpp⟩
  case start => rw [exec_start, processCommand_in_fault (by decide) _ hpp, respond]
  case push => rw [exec_pushb, processCommand_in_fault (by decide) _ hpp, respond]
  case rdb => rw [exec_rdb, processCommand_in_fault (by decide) _ hpp, respond]
  case rdw => rw [exec_rdw, processCommand_in_fault (by decide) _ hpp, respond]
  case illegal =>
    rw [step_command_rejected hsched hport hdecode]
    exact execIllegal_in_fault hpp

end Sys2Proof.Machine
end

section
/-! PROOFS. The encoder against the decoder (R103, R107, R112). -/

namespace Sys2Proof

/-! ### The fields of a word put together -/

@[simp] theorem opField_append (op : BitVec 8) (arg : BitVec 32) : opField (op ++ arg) = op :=
  BitVec.extractLsb'_append_eq_left

@[simp] theorem argField_append (op : BitVec 8) (arg : BitVec 32) : argField (op ++ arg) = arg :=
  BitVec.extractLsb'_append_eq_right

/-- R101: a word is its opcode followed by its `arg`. -/
theorem opField_append_argField (cw : CommandWord) : opField cw ++ argField cw = cw :=
  commandWord_ext (opField_append _ _) (argField_append _ _)

/-- R102: an operand below reserved bits that are 0 is the whole of `arg`. -/
theorem zero_append_operand {bits n : Nat} (arg : BitVec 32) (h : n + bits = 32)
    (hreserved : arg.extractLsb' bits n = 0) : (0#n ++ arg.extractLsb' 0 bits).cast h = arg := by
  apply BitVec.eq_of_toNat_eq
  have hfits := (reserved_eq_zero arg ((Nat.add_comm bits n).trans h)).mp hreserved
  rw [BitVec.toNat_cast, Machine.toNat_append, BitVec.extractLsb'_toNat, Nat.shiftRight_zero, Nat.mod_eq_of_lt hfits]
  simp

/-- An operand and the reserved bits above it, which are 0, come back from `arg`. -/
theorem extractLsb'_zero_append {n bits : Nat} (x : BitVec bits) :
    (0#n ++ x).extractLsb' bits n = 0 ∧ (0#n ++ x).extractLsb' 0 bits = x :=
  ⟨BitVec.extractLsb'_append_eq_left, BitVec.extractLsb'_append_eq_right⟩

/-- R101: the operand types leave no instruction out of its ranges. -/
theorem Instr.wellFormed (i : Instr) : i.WellFormed := by
  cases i with
  | start x | pushb x | rdb x | rdw x => exact decide_eq_true x.isLt
  | nop | rds | abort | ldw | exp | initv | rnd | fold | disp | p80 | p00 | plen => rfl

theorem Decoded.toOption_eq_some {d : Decoded} {i : Instr} (h : d.toOption = some i) : d = .instr i := by
  cases d with
  | instr j => rw [Option.some.inj h]
  | rejected why => cases h

/-! ### The obligations -/

/-- Settles O1: the decoder run on each word. -/
theorem decodedExampleWords : Obligations.DecodedExampleWords := by
  unfold Obligations.DecodedExampleWords
  decide

/-- Settles O2: a command's opcode and operand come back from their fields; a micro-op's word is its row's pattern. -/
theorem decodeOfEncode : Obligations.DecodeOfEncode := by
  intro i _
  cases i with
  | nop | rds | abort => rfl
  | start len => simp [encode, decode, decodeCommand]
  | pushb byte =>
    obtain ⟨hreserved, hbyte⟩ := extractLsb'_zero_append (n := 24) byte
    simp [encode, decode, decodeCommand, hreserved, hbyte]
  | rdb j =>
    obtain ⟨hreserved, hj⟩ := extractLsb'_zero_append (n := 27) j
    simp [encode, decode, decodeCommand, hreserved, hj]
  | rdw k =>
    obtain ⟨hreserved, hk⟩ := extractLsb'_zero_append (n := 29) k
    simp [encode, decode, decodeCommand, hreserved, hk]
  | ldw | exp | initv | rnd | fold | disp | p80 | p00 | plen => rfl

/-- Settles O3: the opcode and the `arg` of a decoded word are those the encoder writes. -/
theorem encodeOfDecode : Obligations.EncodeOfDecode := by
  intro cw i h
  have hword {op : BitVec 8} {arg : BitVec 32} (hop : (opField cw).toNat = op.toNat) (harg : argField cw = arg) :
      Encoded.command (op ++ arg) = .command cw := by
    rw [← harg, ← BitVec.eq_of_toNat_eq hop, opField_append_argField]
  rcases decodeCommand_instr h with ⟨rfl, hop, harg⟩ | ⟨rfl, hop⟩ | ⟨rfl, hop, harg⟩ | ⟨rfl, hop, harg⟩ |
    ⟨rfl, hop, harg⟩ | ⟨rfl, hop, harg⟩ | ⟨rfl, hop, harg⟩
  · exact hword hop harg
  · exact hword hop rfl
  · exact hword hop (zero_append_operand (bits := 8) (n := 24) (argField cw) rfl harg).symm
  · exact hword hop (zero_append_operand (bits := 5) (n := 27) (argField cw) rfl harg).symm
  · exact hword hop (zero_append_operand (bits := 3) (n := 29) (argField cw) rfl harg).symm
  · exact hword hop harg
  · exact hword hop harg

end Sys2Proof
end

section
/-! PROOFS. The assembler's expansions (R109, R110). -/

namespace Sys2Proof.Machine

/-- Every word of a command decodes to it, and a command has one word. -/
theorem commandWord_decode {i : Instr} (h : i.isMicroOp = false) : (commandWord i).map decodeCommand = [.instr i] := by
  have hdec := decodeOfEncode i i.wellFormed
  unfold commandWord
  cases henc : encode i with
  | command cw => simpa [henc, decode] using hdec
  | select u => cases i <;> simp [encode, Instr.isMicroOp] at henc h

/-- Words of one command for each element of a list decode to those commands, in order. -/
theorem flatMap_commandWord_decode {α : Type} (f : α → Instr) (h : ∀ x, (f x).isMicroOp = false) (xs : List α) :
    (xs.flatMap fun x => commandWord (f x)).map decodeCommand = xs.map fun x => .instr (f x) := by
  induction xs with
  | nil => rfl
  | cons x xs ih => simp [ih, commandWord_decode (h x)]

theorem pushsWords_decode (text : List Char) :
    (pushsWords text).map decodeCommand = text.map fun c => .instr (.pushb (BitVec.ofNat 8 c.toNat)) :=
  flatMap_commandWord_decode (fun c : Char => .pushb (BitVec.ofNat 8 c.toNat)) (fun _ => rfl) text

theorem flatMap_pushWord_decode (bytes : List Nat) :
    (bytes.flatMap pushWord).map decodeCommand = bytes.map fun x => .instr (.pushb (BitVec.ofNat 8 x)) :=
  flatMap_commandWord_decode (fun x : Nat => .pushb (BitVec.ofNat 8 x)) (fun _ => rfl) bytes

theorem digestWords_decode :
    digestWords.map decodeCommand = (List.range 32).map fun j => .instr (.rdb (BitVec.ofNat 5 j)) :=
  flatMap_commandWord_decode (fun j : Nat => .rdb (BitVec.ofNat 5 j)) (fun _ => rfl) _

theorem digestwWords_decode :
    digestwWords.map decodeCommand = (List.range 8).map fun i => .instr (.rdw (BitVec.ofNat 3 i)) :=
  flatMap_commandWord_decode (fun i : Nat => .rdw (BitVec.ofNat 3 i)) (fun _ => rfl) _

/-- Settles O7: each line's words are words of commands, and those decode to their commands. -/
theorem assemblerExpansions : Obligations.AssemblerExpansions := by
  refine ⟨rfl, fun l ls => rfl, fun text _ => ?hash, fun bytes _ => flatMap_pushWord_decode bytes,
    fun x count _ => ?pushn, fun text _ => pushsWords_decode text, digestWords_decode, digestwWords_decode⟩
  case hash =>
    rw [AsmLine.words, List.map_append, List.map_append, commandWord_decode rfl, pushsWords_decode, digestWords_decode]
  case pushn => rw [AsmLine.words, flatMap_pushWord_decode, List.map_replicate]

end Sys2Proof.Machine
end

section
/-! PROOFS. Which micro-op is enabled (R112), and what the turn of each agent is (R81, R100, R218, R270). -/

namespace Sys2Proof.Machine

/-! ### The enabled micro-op from CP and PP -/

/-- The micro-op of the core's phase on a full block (R112); an idle core takes the block. -/
def coreOp : CorePhase → Instr
  | .cidle => .disp
  | .load => .ldw
  | .expand => .exp
  | .init => .initv
  | .round => .rnd
  | .fold => .fold

/-- The micro-op of the padding controller's phase while the block has room (R112). -/
def padOp : PadPhase → Option Instr
  | .idle => none
  | .recv => none
  | .pad80 => some .p80
  | .pad00 => some .p00
  | .padlen => some .plen
  | .done => none
  | .fault => none

theorem enabled_of_full {s : State} (hn : s.n.val = 64) (hbusy : s.cp ≠ .cidle → s.pp.busy = true) :
    enabled s = some (coreOp s.cp) := by
  rw [enabled_eq_inWords, enabledInWords]
  cases hc : s.cp with
  | cidle => simp [hn, coreOp]
  | load | expand | init | round | fold => simp [hn, hbusy (by simp [hc]), coreOp]

theorem enabled_of_room {s : State} (hc : s.cp = .cidle) (hn : s.n.val ≠ 64) : enabled s = padOp s.pp := by
  rw [enabled_eq_inWords, enabledInWords, hc]
  cases s.pp <;> simp [hn, padOp]

/-- R112 in the states R52 allows: a full block is the core's, and otherwise the padding controller goes on. -/
theorem Rule52.enabled_eq {s : State} (h : Rule52 s) :
    enabled s = if s.n.val = 64 then some (coreOp s.cp) else padOp s.pp := by
  split
  case isTrue hn => exact enabled_of_full hn fun hc => (h.item2 hc).1
  case isFalse hn =>
    have hc : s.cp = .cidle := by
      by_contra hc
      exact hn (h.item2 hc).2
    exact enabled_of_room hc hn

@[simp] theorem enabled_consumeTurn (s : State) : enabled (consumeTurn s) = enabled s := rfl

/-- Only micro-ops are enabled. -/
theorem enabled_isMicroOp {s : State} {i : Instr} (h : enabled s = some i) : i.isMicroOp = true := by
  rcases enabled_some h with ⟨rfl, -⟩ | ⟨rfl, -⟩ | ⟨rfl, -⟩ | ⟨rfl, -⟩ | ⟨rfl, -⟩ | ⟨rfl, -⟩ | ⟨rfl, -⟩ | ⟨rfl, -⟩ |
    ⟨rfl, -⟩ <;> rfl

/-- A row of R112 selects its micro-op: checked word by word. -/
theorem selectMicroOp_of_matches : ∀ r ∈ selectTable, ∀ u : SelectWord, u &&& r.mask = r.pattern →
    selectMicroOp u = .instr r.op := by
  decide

/-- No word matches two rows: it would select two micro-ops. -/
theorem selectTable_disjoint : selectTable.Pairwise fun r r' =>
    ∀ u : SelectWord, u &&& r.mask = r.pattern → u &&& r'.mask ≠ r'.pattern := by
  have hops : selectTable.Pairwise fun r r' => r.op ≠ r'.op := by decide
  refine hops.imp_of_mem fun {r r'} hr hr' hne u hmatch hmatch' => hne ?_
  exact Decoded.instr.inj ((selectMicroOp_of_matches r hr u hmatch).symm.trans (selectMicroOp_of_matches r' hr' u hmatch'))

/-- Settles O8: the rows word by word; in a state of R52 the phases alone say which micro-op is enabled. -/
theorem microOpSelection : Obligations.MicroOpSelection := by
  refine ⟨selectMicroOp_of_matches, selectTable_disjoint, fun s h => ?words, fun s hc h => ?unreachable⟩
  case words =>
    rw [h.enabled_eq]
    by_cases hn : s.n.val = 64
    · cases hc : s.cp <;> simp [hn, coreOp]
    · have hc : s.cp = .cidle := by
        by_contra hc
        exact hn (h.item2 hc).2
      have hlt : s.n.val < 64 := by omega
      cases s.pp <;> simp [hn, hc, hlt, padOp]
  case unreachable =>
    have hblocked : ¬ (s.n.val = 64 ∧ s.pp.busy = true) := by
      rintro ⟨hn, hbusy⟩
      rcases h with h | h | h | h
      · exact h hn
      all_goals simp [h, PadPhase.busy] at hbusy
    rw [enabled_eq_inWords, enabledInWords]
    cases hcp : s.cp with
    | cidle => exact absurd hcp hc
    | load | expand | init | round | fold => exact if_neg hblocked

/-! ### Index ranges (R49, R76) -/

/-- The index range of each micro-op: outside it the model stops (log 8). -/
def InRange (i : Instr) (s : State) : Prop :=
  match i with
  | .ldw => s.t.val < 16
  | .exp => 16 ≤ s.t.val
  | .p80 => s.n.val < 64
  | .p00 => s.n.val < 64
  | .plen => s.n.val < 64 ∧ s.q.val < 8
  | _ => True

/-- A command answers a next state if its accepted form does. -/
theorem processCommand_exists_next {c : CommandKind} {f : State → Result} {s : State}
    (hf : disposition c s.pp s.cp s.n = .accept → ∃ t, f s = .next t) : ∃ t, processCommand c f s = .next t := by
  cases hd : disposition c s.pp s.cp s.n with
  | hold => exact ⟨_, processCommand_hold f hd⟩
  | reject => exact ⟨_, processCommand_reject f hd⟩
  | fault k => exact ⟨_, processCommand_fault f hd⟩
  | accept => rw [processCommand_accept f hd]; exact hf hd

theorem execIllegal_exists_next (s : State) : ∃ t, execIllegal s = .next t :=
  processCommand_exists_next fun _ => ⟨s, rfl⟩

/-- What a host command does when it is accepted (R210 to R217). -/
def acceptedForm (i : Instr) (s : State) : Result :=
  match i with
  | .nop => .next (respond false 0 s)
  | .start len => .next (respond false 0 (startComputation len s))
  | .pushb x => appendByte x (fun s' => respond false 0 (countByte s')) s
  | .rdb j => .next (respond false ((digestByte s j).setWidth 32) s)
  | .rdw k => .next (respond false (readH s ⟨k.toNat, k.isLt⟩) s)
  | .rds => .next (respond false (status s) s)
  | .abort => .next (returnFromFault s)
  | _ => .next s

theorem acceptedForm_pushb_next {x : Byte} {s t : State} (h : acceptedForm (.pushb x) s = .next t) :
    t = respond false 0 (countByte (storeByte x s)) :=
  (appendByte_next (f := fun s' => respond false 0 (countByte s')) h).2

/-- R218: every host command is its row of the disposition table and its accepted form. -/
theorem exec_command {i : Instr} (hi : i.isMicroOp = false) (s : State) :
    exec i s = processCommand (commandKind (.instr i)) (acceptedForm i) s := by
  cases i with
  | nop | start | pushb | rdb | rdw | rds | abort => rfl
  | ldw | exp | initv | rnd | fold | disp | p80 | p00 | plen => exact Bool.noConfusion hi

theorem exec_command_exists_next {i : Instr} (hi : i.isMicroOp = false) (s : State) : ∃ t, exec i s = .next t := by
  rw [exec_command hi]
  refine processCommand_exists_next fun hd => ?_
  cases i with
  | nop | start | rdb | rdw | rds | abort => exact ⟨_, rfl⟩
  | pushb x => exact ⟨_, appendByte_of_room x (fun s' => respond false 0 (countByte s')) (accept_push hd).2.2⟩
  | ldw | exp | initv | rnd | fold | disp | p80 | p00 | plen => exact Bool.noConfusion hi

/-- Only an index out of range stops an instruction. -/
theorem exec_exists_next {i : Instr} {s : State} (h : InRange i s) : ∃ t, exec i s = .next t := by
  cases i with
  | nop | start | pushb | rdb | rdw | rds | abort => exact exec_command_exists_next rfl s
  | ldw => exact ⟨_, exec_ldw_of_lt h⟩
  | exp => exact ⟨_, exec_exp_of_le h⟩
  | initv | rnd | fold | disp => exact ⟨_, rfl⟩
  | p80 => exact ⟨_, p80Result s h⟩
  | p00 => exact ⟨_, p00Result s h⟩
  | plen => exact ⟨_, plenResult s h.1 h.2⟩

/-- Settles O36: each range test fails. -/
theorem outOfRangeMicroOpsStop : Obligations.OutOfRangeMicroOpsStop := by
  refine fun s => ⟨fun hn => ⟨?p80, ?p00, fun hq => ?plen⟩, fun hq => ?lengthByte, fun ht => ?ldw, fun ht => ?exp⟩
  case p80 => exact if_neg (by omega)
  case p00 => exact if_neg (by omega)
  case plen =>
    rw [exec_plen_of_missing hq]
    exact if_neg (by omega)
  case lengthByte => exact if_neg (by omega)
  case ldw => exact if_neg (by omega)
  case exp => exact if_neg (by omega)

/-- An instruction that answers a next state was in its index range (log 8). -/
theorem inRange_of_exec_next {i : Instr} {s t : State} (h : exec i s = .next t) : InRange i s := by
  obtain ⟨hfull, hlength, hldw, hexp⟩ := outOfRangeMicroOpsStop s
  by_contra hout
  have hn : s.n.val < 64 ∨ s.n.val = 64 := by omega
  cases i with
  | nop | start | pushb | rdb | rdw | rds | abort | initv | rnd | fold | disp => exact hout trivial
  | ldw => exact nomatch h.symm.trans (hldw (Nat.le_of_not_lt hout))
  | exp => exact nomatch h.symm.trans (hexp (Nat.lt_of_not_le hout))
  | p80 => exact nomatch h.symm.trans (hfull (hn.resolve_left hout)).1
  | p00 => exact nomatch h.symm.trans (hfull (hn.resolve_left hout)).2.1
  | plen =>
    by_cases hq : s.q.val < 8
    · exact nomatch h.symm.trans ((hfull (hn.resolve_left fun hlt => hout ⟨hlt, hq⟩)).2.2 hq)
    · exact nomatch h.symm.trans (hlength (by omega))

/-! ### A step on a given turn -/

theorem consumeTurn_of_cons {s : State} {turn : Turn} {rest : List Turn} (h : s.sched = turn :: rest) :
    consumeTurn s = { s with sched := rest } := by
  rw [consumeTurn, h, List.tail_cons]

theorem consumeTurn_of_nil {s : State} (h : s.sched = []) : consumeTurn s = s := by
  rw [consumeTurn, h, List.tail_nil, ← h]

theorem nextTurn_of_cons {s : State} {turn : Turn} {rest : List Turn} (h : s.sched = turn :: rest) :
    nextTurn s = turn := by
  rw [nextTurn, h]

/-- R218: the command's turn performs the presented command. -/
theorem step_command {s : State} {cw : CommandWord} {i : Instr} (ht : nextTurn s = .command) (hport : s.port = some cw)
    (hdecode : decodeCommand cw = .instr i) : step s = exec i (consumeTurn s) := by
  simp [step, ht, fetch, hport, hdecode, perform]

theorem step_rejected {s : State} {cw : CommandWord} {why : Rejection} (ht : nextTurn s = .command)
    (hport : s.port = some cw) (hdecode : decodeCommand cw = .rejected why) : step s = execIllegal (consumeTurn s) := by
  rw [step, ht, fetch_command_rejected hport hdecode, perform]

/-- A turn of an agent with nothing to do is used up and changes nothing (log 9). -/
theorem step_idle {s : State} (h : (nextTurn s = .engine ∧ enabled s = none) ∨ (nextTurn s = .command ∧ s.port = none)) :
    step s = .next (consumeTurn s) := by
  rcases h with ⟨ht, hnone⟩ | ⟨ht, hnone⟩ <;> simp [step, ht, fetch, hnone, perform]

theorem step_present {s : State} (ht : nextTurn s = .present) : step s = .next (presentNext (consumeTurn s)) := by
  rw [step, ht, fetch, perform]

theorem step_rst {s : State} (ht : nextTurn s = .rst) : step s = .next (resetInput (consumeTurn s)) := by
  rw [step, ht, fetch, perform]

/-- Settles O9: the given turn, or with none given the fair one, fetches the instruction. -/
theorem stepRunsTheDecodedInstruction : Obligations.StepRunsTheDecodedInstruction := by
  refine fun s rest i => ⟨fun hsched cw hport hdecode => ?command, fun hsched henabled => ?engine,
    fun hsched henabled => ?fairEngine, fun hsched hnone cw hport hdecode => ?fairCommand⟩
  case command => rw [step_command (nextTurn_of_cons hsched) hport hdecode, consumeTurn_of_cons hsched]
  case engine => rw [step_engine (nextTurn_of_cons hsched) henabled, consumeTurn_of_cons hsched]
  case fairEngine => rw [step_engine (nextTurn_of_enabled hsched henabled) henabled, consumeTurn_of_nil hsched]
  case fairCommand =>
    have hturn : nextTurn s = .command := by simp [nextTurn, hsched, fairTurn, hnone, hport]
    rw [step_command hturn hport hdecode, consumeTurn_of_nil hsched]

/-- Settles O12: the reset input wipes the engine and empties the port. -/
theorem resetInputInEveryState : Obligations.ResetInputInEveryState := by
  intro s rest hsched
  refine ⟨_, step_rst (nextTurn_of_cons hsched), resetInput_engineReset _, rfl, rfl, rfl, ?_⟩
  rw [consumeTurn_of_cons hsched]
  rfl

/-- The host's move leaves the responses, the turns and a presented word alone. -/
theorem presentNext_outside (s : State) : (presentNext s).rsp = s.rsp ∧ (presentNext s).sched = s.sched ∧
    ∀ cw, s.port = some cw → (presentNext s).port = some cw := by
  unfold presentNext
  split <;> simp_all

theorem SameEngine.trans {s t u : State} (h : SameEngine s t) (h' : SameEngine t u) : SameEngine s u :=
  ⟨h'.v.trans h.v, h'.h.trans h.h, h'.w.trans h.w, h'.b.trans h.b, h'.pp.trans h.pp, h'.cp.trans h.cp, h'.t.trans h.t,
    h'.n.trans h.n, h'.q.trans h.q, h'.len.trans h.len, h'.cnt.trans h.cnt, h'.cause.trans h.cause⟩

/-- Settles O13: the host's move, on a state whose turn is used up. -/
theorem hostPresentsInOrder : Obligations.HostPresentsInOrder := by
  intro s rest hsched
  obtain ⟨hrsp, hturns, hport⟩ := presentNext_outside (consumeTurn s)
  refine ⟨_, step_present (nextTurn_of_cons hsched),
    (consumeTurn_sameEngine s).trans (presentNext_sameEngine _), hrsp, ?turns, presentNext_pending _, hport,
    fun cw ws hfree hhost => ?next⟩
  case turns => rw [hturns, consumeTurn_of_cons hsched]
  case next =>
    rw [presentNext_of_host (s := consumeTurn s) hfree hhost]
    exact ⟨rfl, rfl⟩

/-! ### An instruction placed where the next step fetches it (log 12) -/

theorem busyPhaseOf_busy (u : SelectWord) : (busyPhaseOf u).busy = true := by
  unfold busyPhaseOf
  split <;> rfl

/-- A core micro-op is enabled where `placeCore` puts the sequencer. -/
theorem enabled_placeCore (cp : CorePhase) (t : Fin 64) (u : SelectWord) (s : State) :
    enabled (placeCore cp t u s) = some (coreOp cp) :=
  enabled_of_full (s := placeCore cp t u s) rfl fun _ => busyPhaseOf_busy u

theorem placePad_n_lt (pp : PadPhase) (s : State) : (placePad pp s).n.val < 64 := by
  unfold placePad
  dsimp only
  split
  · assumption
  · decide

theorem enabled_placePad (pp : PadPhase) (s : State) : enabled (placePad pp s) = padOp pp :=
  enabled_of_room (s := placePad pp s) rfl (placePad_n_lt pp s).ne

/-- A select word decodes to micro-ops only. -/
theorem selectMicroOp_isMicroOp : ∀ (u : SelectWord) (i : Instr), selectMicroOp u = .instr i → i.isMicroOp = true := by
  intro u i h
  unfold selectMicroOp at h
  split at h
  · next r hr =>
    obtain rfl := Decoded.instr.inj h
    have hall : ∀ r ∈ selectTable, r.op.isMicroOp = true := by decide
    exact hall r (List.mem_of_find?_eq_some hr)
  · exact Decoded.noConfusion h

/-- A select word's micro-op is enabled, with its indices in range, where `placeSelect` puts the sequencer. -/
theorem placeSelect_spec {u : SelectWord} {i : Instr} (h : selectMicroOp u = .instr i) (s : State) :
    enabled (placeSelect u s) = some i ∧ InRange i (placeSelect u s) := by
  have hmicro := selectMicroOp_isMicroOp u i h
  unfold placeSelect
  cases i with
  | nop | start | pushb | rdb | rdw | rds | abort => simp [Instr.isMicroOp] at hmicro
  | ldw =>
    simp only [h]
    refine ⟨enabled_placeCore .load _ u s, ?_⟩
    dsimp only [InRange, placeCore]
    split
    · assumption
    · decide
  | exp =>
    simp only [h]
    refine ⟨enabled_placeCore .expand _ u s, ?_⟩
    dsimp only [InRange, placeCore]
    split
    · assumption
    · decide
  | initv => simp only [h]; exact ⟨enabled_placeCore .init _ u s, trivial⟩
  | rnd => simp only [h]; exact ⟨enabled_placeCore .round _ u s, trivial⟩
  | fold => simp only [h]; exact ⟨enabled_placeCore .fold _ u s, trivial⟩
  | disp => simp only [h]; exact ⟨enabled_placeCore .cidle _ u s, trivial⟩
  | p80 => simp only [h]; exact ⟨enabled_placePad .pad80 s, placePad_n_lt .pad80 s⟩
  | p00 => simp only [h]; exact ⟨enabled_placePad .pad00 s, placePad_n_lt .pad00 s⟩
  | plen =>
    simp only [h]
    refine ⟨enabled_placePad .padlen s, placePad_n_lt .padlen s, ?_⟩
    dsimp only [placePad]
    split
    · assumption
    · decide

/-- Placing a micro-op leaves the turns to come alone. -/
theorem placeSelect_sched (u : SelectWord) (s : State) : (placeSelect u s).sched = s.sched := by
  unfold placeSelect
  split <;> rfl

theorem decodeCommand_of_decodeTableWord {w : Nat} {i : Instr} (h : decodeTableWord 40 w = some i) :
    decodeCommand (BitVec.ofNat 40 w) = .instr i := by
  simp only [decodeTableWord, if_true] at h
  split at h
  · exact Decoded.toOption_eq_some h
  · cases h

theorem selectMicroOp_of_decodeTableWord {w : Nat} {i : Instr} (h : decodeTableWord 8 w = some i) :
    selectMicroOp (BitVec.ofNat 7 w) = .instr i := by
  simp only [decodeTableWord, Nat.reduceEqDiff, if_false, or_true, if_true] at h
  split at h
  · exact Decoded.toOption_eq_some h
  · cases h

/-- Settles O10: the placed turn is used up by the step, which leaves the placed state itself to `exec`. -/
theorem placedInstructionRunsNext : Obligations.PlacedInstructionRunsNext := by
  refine fun s w i => ⟨fun h => ?command, fun h => ?select⟩
  case command => exact step_command rfl rfl (decodeCommand_of_decodeTableWord h)
  case select =>
    obtain ⟨henabled, hrange⟩ := placeSelect_spec (selectMicroOp_of_decodeTableWord h) s
    have hstep : step (s.withFetchWord 8 w) = exec i (placeSelect (BitVec.ofNat 7 w) s) := by
      rw [step_engine (s := s.withFetchWord 8 w) rfl henabled, consumeTurn_of_cons rfl, ← placeSelect_sched]
      rfl
    exact ⟨hstep, hstep ▸ exec_exists_next hrange⟩

end Sys2Proof.Machine
end

section
/-! PROOFS. What a step can do: to the engine, and to the ports (R81, R211, R218, R246, R270). -/

namespace Sys2Proof.Machine

/-! ### The ports -/

/-- A command's word is taken with one response: the port is emptied, the host's queue and the turns stay. -/
structure Taken (s t : State) (r : Response) : Prop where
  rsp : t.rsp = s.rsp ++ [r]
  port : t.port = none
  host : t.host = s.host
  sched : t.sched = s.sched

/-- A command is held, or its word is taken, if its accepted form takes it (R218). -/
theorem processCommand_taken {c : CommandKind} {f : State → Result} {s t : State}
    (hf : f s = .next t → ∃ r, Taken s t r) (h : processCommand c f s = .next t) :
    (disposition c s.pp s.cp s.n = .hold ∧ t = s) ∨ ∃ r, Taken s t r := by
  rcases processCommand_next h with hold | ⟨-, rfl⟩ | ⟨k, -, rfl⟩ | ⟨-, haccept⟩
  · exact .inl hold
  · exact .inr ⟨_, rfl, rfl, rfl, rfl⟩
  · exact .inr ⟨_, rfl, rfl, rfl, rfl⟩
  · exact .inr (hf haccept)

theorem exec_command_taken {i : Instr} {s t : State} (hi : i.isMicroOp = false) (h : exec i s = .next t) :
    (disposition (commandKind (.instr i)) s.pp s.cp s.n = .hold ∧ t = s) ∨ ∃ r, Taken s t r := by
  rw [exec_command hi] at h
  refine processCommand_taken (fun haccept => ?_) h
  cases i with
  | nop | start | rdb | rdw | rds | abort =>
    cases haccept
    exact ⟨_, rfl, rfl, rfl, rfl⟩
  | pushb x =>
    obtain rfl := acceptedForm_pushb_next haccept
    exact ⟨_, rfl, rfl, rfl, rfl⟩
  | ldw | exp | initv | rnd | fold | disp | p80 | p00 | plen => exact Bool.noConfusion hi

/-- An illegal word is never held (R104). -/
theorem execIllegal_taken {s t : State} (h : execIllegal s = .next t) : ∃ r, Taken s t r := by
  rcases processCommand_next h with ⟨hd, -⟩ | ⟨-, rfl⟩ | ⟨k, -, rfl⟩ | ⟨hd, -⟩
  · cases hp : s.pp <;> simp [hp, disposition] at hd
  · exact ⟨_, rfl, rfl, rfl, rfl⟩
  · exact ⟨_, rfl, rfl, rfl, rfl⟩
  · exact absurd hd (not_accept_illegal _ _ _)

/-- Settles O46: a word leaves the port with its one response, or by a reset. -/
theorem oneResponsePerCommandTaken : Obligations.OneResponsePerCommandTaken := by
  intro s t h
  rcases step_cases s with ⟨i, henabled, -, hstep⟩ | ⟨cw, i, hport, hdecode, hturn, hstep⟩ |
    ⟨cw, why, hport, -, hturn, hstep⟩ | ⟨-, hstep⟩ | ⟨hturn, hstep⟩ | ⟨-, hstep⟩ <;> rw [hstep] at h
  · obtain ⟨hrsp, hport, hhost, -⟩ := exec_microOp_outside (enabled_isMicroOp henabled) h
    exact .inr (.inl ⟨hrsp, by rw [pending, hport, hhost]; rfl, fun cw hcw => hport.trans hcw⟩)
  · rcases exec_command_taken (decodeCommand_isMicroOp hdecode) h with ⟨-, rfl⟩ | ⟨r, htaken⟩
    · exact .inr (.inl ⟨rfl, rfl, fun _ => id⟩)
    · exact .inl ⟨r, htaken.rsp, hturn, by simp [hport], htaken.port, htaken.host⟩
  · obtain ⟨r, htaken⟩ := execIllegal_taken h
    exact .inl ⟨r, htaken.rsp, hturn, by simp [hport], htaken.port, htaken.host⟩
  · cases h
    obtain ⟨hrsp, -, hport⟩ := presentNext_outside (consumeTurn s)
    exact .inr (.inl ⟨hrsp, presentNext_pending _, hport⟩)
  · cases h
    exact .inr (.inr ⟨rfl, hturn, rfl, rfl⟩)
  · cases h
    exact .inr (.inl ⟨rfl, rfl, fun _ => id⟩)

/-! ### The engine -/

/-- What a step does to the engine: one constructor for each thing it can do. The target of each operation is given up
to what the tuple of R30 leaves out. -/
inductive StepEffect (s t : State) : Prop
  /-- Nothing: no agent acts on the engine, or the command is held, rejected, or accepted without effect. -/
  | keeps (same : SameEngine s t)
  /-- The engine is reset (R217, R270). -/
  | wipes (turn : WipeTurn s) (same : SameEngine (wipe s) t)
  /-- A protocol fault is taken (R246). -/
  | faults (d : Decoded) (k : Cause) (turn : CommandTurn s d)
      (disp : disposition (commandKind d) s.pp s.cp s.n = .fault k) (same : SameEngine (enterFault k s) t)
  /-- A `START` is accepted (R210). -/
  | starts (len : Word) (turn : CommandTurn s (.instr (.start len))) (phase : s.pp = .idle ∨ s.pp = .done)
      (same : SameEngine (startComputation len s) t)
  /-- A `PUSHB` is accepted (R213). -/
  | pushes (x : Byte) (turn : CommandTurn s (.instr (.pushb x))) (phase : s.pp = .recv) (core : s.cp = .cidle)
      (room : s.n.val < 64) (same : SameEngine (countByte (storeByte x s)) t)
  /-- The enabled micro-op is performed. -/
  | performs (i : Instr) (turn : nextTurn s = .engine) (enabled : enabled s = some i)
      (run : exec i (consumeTurn s) = .next t)

/-- The cases of a command's row that do not depend on the command. -/
theorem StepEffect.of_processCommand {d : Decoded} {f : State → Result} {s t : State} (turn : CommandTurn s d)
    (hf : disposition (commandKind d) s.pp s.cp s.n = .accept → f (consumeTurn s) = .next t → StepEffect s t)
    (h : processCommand (commandKind d) f (consumeTurn s) = .next t) : StepEffect s t := by
  rcases processCommand_next h with ⟨-, rfl⟩ | ⟨-, rfl⟩ | ⟨k, hd, rfl⟩ | ⟨hd, haccept⟩
  · exact .keeps (consumeTurn_sameEngine s)
  · exact .keeps ((consumeTurn_sameEngine s).trans (respond_sameEngine _ _ _))
  · exact .faults d k turn hd (by constructor <;> rfl)
  · exact hf hd haccept

theorem StepEffect.of_exec {i : Instr} {s t : State} (turn : CommandTurn s (.instr i)) (hi : i.isMicroOp = false)
    (h : exec i (consumeTurn s) = .next t) : StepEffect s t := by
  rw [exec_command hi] at h
  refine .of_processCommand turn (fun hd haccept => ?_) h
  cases i with
  | nop | rdb | rdw | rds =>
    cases haccept
    exact .keeps (by constructor <;> rfl)
  | start len =>
    cases haccept
    exact .starts len turn (accept_start hd) (by constructor <;> rfl)
  | pushb x =>
    obtain ⟨hphase, hcore, hroom⟩ := accept_push hd
    obtain rfl := acceptedForm_pushb_next haccept
    exact .pushes x turn hphase hcore hroom (by constructor <;> rfl)
  | abort =>
    cases haccept
    exact .wipes (.inr turn) (by constructor <;> rfl)
  | ldw | exp | initv | rnd | fold | disp | p80 | p00 | plen => exact Bool.noConfusion hi

theorem commandTurn_of_port {s : State} {cw : CommandWord} {d : Decoded} (hturn : nextTurn s = .command)
    (hport : s.port = some cw) (hdecode : decodeCommand cw = d) : CommandTurn s d :=
  ⟨hturn, by rw [hport, Option.map_some, hdecode]⟩

/-- Every step does one of these things to the engine. -/
theorem step_effect {s t : State} (h : step s = .next t) : StepEffect s t := by
  rcases step_cases s with ⟨i, henabled, hturn, hstep⟩ | ⟨cw, i, hport, hdecode, hturn, hstep⟩ |
    ⟨cw, why, hport, hdecode, hturn, hstep⟩ | ⟨-, hstep⟩ | ⟨hturn, hstep⟩ | ⟨-, hstep⟩ <;> rw [hstep] at h
  · exact .performs i hturn henabled h
  · exact .of_exec (commandTurn_of_port hturn hport hdecode) (decodeCommand_isMicroOp hdecode) h
  · exact .of_processCommand (commandTurn_of_port hturn hport hdecode)
      (fun hd _ => absurd hd (not_accept_illegal _ _ _)) h
  · cases h
    exact .keeps ((consumeTurn_sameEngine s).trans (presentNext_sameEngine _))
  · cases h
    exact .wipes (.inl hturn) (by constructor <;> rfl)
  · cases h
    exact .keeps (consumeTurn_sameEngine s)

/-- A word of the row of illegal words is rejected by the decoder: a micro-op has no command word. -/
theorem CommandTurn.rejected_of_illegal {s : State} {d : Decoded} (h : CommandTurn s d)
    (hd : commandKind d = .illegal) : ∃ why, d = .rejected why := by
  obtain ⟨cw, -, hdecode⟩ := Option.map_eq_some_iff.mp h.2
  cases d with
  | rejected why => exact ⟨why, rfl⟩
  | instr i =>
    have hi := decodeCommand_isMicroOp hdecode
    cases i with
    | nop | start | pushb | rdb | rdw | rds | abort => cases hd
    | ldw | exp | initv | rnd | fold | disp | p80 | p00 | plen => exact Bool.noConfusion hi

end Sys2Proof.Machine
end

section
/-! PROOFS. The core's micro-operations before the add-back (R164, R180, R181, R190, R191): what they leave alone, how far
they are with the block's 131, and what they keep of the cells of W and V. -/

namespace Sys2Proof.Machine

/-! ### The frame and the count -/

/-- How many of a block's 131 micro-operations (R195) the core has performed. -/
def coreDone (cp : CorePhase) (t : Fin 64) : Nat :=
  match cp with
  | .cidle => 0
  | .load => 1 + t.val
  | .expand => 1 + t.val
  | .init => 65
  | .round => 66 + t.val
  | .fold => 130

theorem coreDone_le (cp : CorePhase) (t : Fin 64) : coreDone cp t ≤ 130 := by
  cases cp <;> simp only [coreDone] <;> omega

theorem init_of_coreDone {cp : CorePhase} {t : Fin 64} (h : coreDone cp t = 65) : cp = .init := by
  cases cp with
  | init => rfl
  | cidle | load | expand | round | fold => simp only [coreDone] at h; omega

theorem fold_of_coreDone {cp : CorePhase} {t : Fin 64} (h : coreDone cp t = 130) : cp = .fold := by
  cases cp with
  | fold => rfl
  | cidle | load | expand | init | round => simp only [coreDone] at h; omega

/-- V, W, CP and T are all that changes, and one micro-operation more of the block's is performed. -/
structure CoreStep (s t : State) : Prop where
  frame : t = { s with v := t.v, w := t.w, cp := t.cp, t := t.t }
  done : coreDone t.cp t.t = coreDone s.cp s.t + 1

/-- R164, R180, R181, R190, R191: each core micro-operation before the add-back is such a step. -/
theorem exec_coreOp_step {s t : State} (hc : s.cp ≠ .fold) (ht : exec (coreOp s.cp) s = .next t) : CoreStep s t := by
  have hrange := inRange_of_exec_next ht
  cases hcp : s.cp <;> rw [hcp] at ht hrange
  case cidle =>
    cases ht
    exact ⟨rfl, by rw [hcp]; rfl⟩
  case load =>
    rw [coreOp, exec_ldw_of_lt hrange, hcp] at ht
    cases ht
    have hlt : s.t.val < 16 := hrange
    have hsucc : (s.t + 1).val = s.t.val + 1 := t_succ_val (by omega)
    refine ⟨rfl, ?_⟩
    dsimp only
    rw [hcp]
    split <;> simp only [coreDone, hsucc] <;> omega
  case expand =>
    rw [coreOp, exec_exp_of_le hrange, hcp] at ht
    cases ht
    refine ⟨rfl, ?_⟩
    dsimp only
    rw [hcp]
    by_cases hlast : s.t.val = 63
    · rw [if_pos hlast]
      simp only [coreDone, hlast]
    · simp only [if_neg hlast, coreDone, t_succ_val hlast, Nat.add_assoc]
  case init =>
    cases ht
    exact ⟨rfl, by rw [hcp]; rfl⟩
  case round =>
    rw [coreOp, exec_rnd, hcp] at ht
    cases ht
    refine ⟨rfl, ?_⟩
    dsimp only
    rw [hcp]
    by_cases hlast : s.t.val = 63
    · rw [if_pos hlast]
      simp only [coreDone, hlast]
    · simp only [if_neg hlast, coreDone, t_succ_val hlast, Nat.add_assoc]
  case fold => exact absurd hcp hc

/-- Only an idle core has performed none: it is not idle after a step. -/
theorem CoreStep.not_idle {s t : State} (h : CoreStep s t) : t.cp ≠ .cidle := by
  intro hc
  have hdone := h.done
  rw [hc, coreDone] at hdone
  omega

/-! ### The cells -/

/-- What each phase of the core says of T and the cells of W and V, given what a schedule word `W[i]` is to be and what
the working variables are to be before round `r`: with other contents of W and V, R52 and the functional layer say it. -/
def CoreCells (W : Fin 64 → Option Word → Prop)
    (V : Nat → Vector (Option Word) 64 → Vector (Option Word) 8 → Prop) (cp : CorePhase) (t : Fin 64)
    (w : Vector (Option Word) 64) (v : Vector (Option Word) 8) : Prop :=
  match cp with
  | .cidle => True
  | .load => t.val < 16 ∧ ∀ i : Fin 64, i.val < t.val → W i w[i]
  | .expand => 16 ≤ t.val ∧ ∀ i : Fin 64, i.val < t.val → W i w[i]
  | .init => t.val = 0 ∧ ∀ i : Fin 64, W i w[i]
  | .round => (∀ i : Fin 64, W i w[i]) ∧ V t.val w v
  | .fold => t.val = 0 ∧ V 64 w v

/-- Cells below an index that hold what they are to hold, and the cell at the index written with it: all up to the index
do. -/
theorem forall_le_set {W : Fin 64 → Option Word → Prop} {w : Vector (Option Word) 64} {t : Fin 64} {x : Word}
    (hw : ∀ i : Fin 64, i.val < t.val → W i w[i]) (hx : W t (some x)) :
    ∀ i : Fin 64, i.val ≤ t.val → W i (w.set t.val (some x))[i] := by
  intro i hi
  by_cases hit : i = t
  · subst hit
    simpa using hx
  · have hne : t.val ≠ i.val := fun he => hit (Fin.ext he.symm)
    rw [Fin.getElem_fin, Vector.getElem_set_ne _ _ hne]
    exact hw i (by omega)

/-- What the micro-operations of the core are to write, for `CoreCells` to be kept. -/
structure CoreWrites (W : Fin 64 → Option Word → Prop)
    (V : Nat → Vector (Option Word) 64 → Vector (Option Word) 8 → Prop) (s : State) : Prop where
  ldw : s.t.val < 16 → W s.t (some (memRead4 s (4 * s.t.val)))
  exp : 16 ≤ s.t.val → (∀ i : Fin 64, i.val < s.t.val → W i s.w[i]) →
    W s.t (some (expandWord (readWBack s 2) (readWBack s 7) (readWBack s 15) (readWBack s 16)))
  initv : (∀ i : Fin 64, W i s.w[i]) → V 0 s.w (someWords (hashWords s))
  rnd : (∀ i : Fin 64, W i s.w[i]) → V s.t.val s.w s.v →
    V (s.t.val + 1) s.w (someWords (round (workingWords s) (roundK s.t.val) (readW s s.t)))

theorem CoreCells.step {W : Fin 64 → Option Word → Prop}
    {V : Nat → Vector (Option Word) 64 → Vector (Option Word) 8 → Prop} {s t : State}
    (h : CoreCells W V s.cp s.t s.w s.v) (hwrites : CoreWrites W V s) (hc : s.cp ≠ .fold)
    (ht : exec (coreOp s.cp) s = .next t) : CoreCells W V t.cp t.t t.w t.v := by
  cases hcp : s.cp <;> rw [hcp] at h ht
  case cidle =>
    cases ht
    exact ⟨Nat.zero_lt_succ _, fun i hi => absurd hi (Nat.not_lt_zero _)⟩
  case load =>
    obtain ⟨hlt, hw⟩ := h
    rw [coreOp, exec_ldw_of_lt hlt, hcp] at ht
    cases ht
    have hw' := forall_le_set hw (hwrites.ldw hlt)
    have hsucc : (s.t + 1).val = s.t.val + 1 := t_succ_val (by omega)
    dsimp only
    split <;> simp only [CoreCells, hsucc] <;> exact ⟨by omega, fun i hi => hw' i (by omega)⟩
  case expand =>
    obtain ⟨hle, hw⟩ := h
    rw [coreOp, exec_exp_of_le hle, hcp] at ht
    cases ht
    have hw' := forall_le_set hw (hwrites.exp hle hw)
    dsimp only
    by_cases hlast : s.t.val = 63
    · rw [if_pos hlast, if_pos hlast]
      exact ⟨rfl, fun i => hw' i (by omega)⟩
    · rw [if_neg hlast, if_neg hlast, CoreCells, t_succ_val hlast]
      exact ⟨by omega, fun i hi => hw' i (by omega)⟩
  case init =>
    cases ht
    exact ⟨h.2, hwrites.initv h.2⟩
  case round =>
    obtain ⟨hw, hv⟩ := h
    rw [coreOp, exec_rnd, hcp] at ht
    cases ht
    have hv' := hwrites.rnd hw hv
    dsimp only
    by_cases hlast : s.t.val = 63
    · rw [if_pos hlast, if_pos hlast]
      have h64 : s.t.val + 1 = 64 := by omega
      rw [h64] at hv'
      exact ⟨rfl, hv'⟩
    · rw [if_neg hlast, if_neg hlast, CoreCells, t_succ_val hlast]
      exact ⟨hw, hv'⟩
  case fold => exact absurd hcp hc

end Sys2Proof.Machine
end

section
/-! PROOFS. The invariant (R52, log 10, log 13): its items sorted by what they speak of, each effect of a step, and what
follows for the machine. -/

namespace Sys2Proof.Machine

/-! ### The items by what they speak of -/

/-- Items 4 to 8 and log 13: what each phase of the padding controller says of N, Q, LEN and CNT. -/
def CounterItems (pp : PadPhase) (n q len cnt : Nat) : Prop :=
  match pp with
  | .idle => True
  | .recv => cnt < len ∧ (n < 64 → n = cnt % 64) ∧ (n = 64 → cnt % 64 = 0 ∧ 0 < cnt)
  | .pad80 => cnt = len ∧ (n < 64 → n = len % 64) ∧ (n = 64 → len % 64 = 0)
  | .pad00 => cnt = len ∧ n ≠ 56
  | .padlen => cnt = len ∧ n = 56 + q
  | .done => cnt = len
  | .fault => True

/-- Item 12: a schedule word that is written. -/
def Written (_ : Fin 64) (c : Option Word) : Prop := c ≠ none

/-- Item 12: the schedule and the working variables wholly written, whatever the round. -/
def AllWritten (_ : Nat) (w : Vector (Option Word) 64) (v : Vector (Option Word) 8) : Prop :=
  (∀ i : Fin 64, w[i] ≠ none) ∧ ∀ i : Fin 8, v[i] ≠ none

/-- The invariant with the items sorted. -/
structure InvParts (s : State) : Prop where
  counters : CounterItems s.pp s.n.val s.q.val s.len.toNat s.cnt.toNat
  core : CoreCells Written AllWritten s.cp s.t s.w s.v
  idle : s.cp = .cidle → s.t.val = 0
  inCore : s.cp ≠ .cidle → s.pp.busy = true ∧ s.n.val = 64
  full : s.n.val = 64 → s.pp.busy = true
  quiet : s.pp.busy = false → s.cp = .cidle ∧ s.n.val = 0
  cause : s.cause = .none ↔ s.pp ≠ .fault
  hash : s.pp.busy = true ∨ s.pp = .done → ∀ i : Fin 8, s.h[i] ≠ none
  buffer : s.pp.busy = true → ∀ a, a < s.n.val → s.b.read a ≠ none
  wf : s.b.wf

theorem Inv.parts {s : State} (h : Inv s) : InvParts s where
  counters := by
    obtain ⟨⟨-, -, h4, h5, h6, h7, h8, -, -, -, -, -, -, -, -⟩, hfull, -⟩ := h
    cases hp : s.pp with
    | idle | fault => trivial
    | recv => exact (h4 hp).2
    | pad80 => exact ⟨congrArg BitVec.toNat (h5 (.inl hp)), h6 hp, hfull hp⟩
    | pad00 => exact ⟨congrArg BitVec.toNat (h5 (.inr (.inl hp))), h7 hp⟩
    | padlen => exact ⟨congrArg BitVec.toNat (h5 (.inr (.inr (.inl hp)))), h8 hp⟩
    | done => exact congrArg BitVec.toNat (h5 (.inr (.inr (.inr hp))))
  core := by
    obtain ⟨⟨-, -, -, -, -, -, -, -, -, ⟨hload, hexpand, hzero⟩, -, -, hw, hfull, hv⟩, -, -⟩ := h
    cases hc : s.cp with
    | cidle => trivial
    | load => exact ⟨hload hc, hw (.inl hc)⟩
    | expand => exact ⟨hexpand hc, hw (.inr hc)⟩
    | init => exact ⟨hzero (.inl hc), hfull (.inl hc)⟩
    | round => exact ⟨hfull (.inr (.inl hc)), hfull (.inr (.inl hc)), hv (.inl hc)⟩
    | fold => exact ⟨hzero (.inr (.inl hc)), hfull (.inr (.inr hc)), hv (.inr hc)⟩
  idle := fun hc => h.rule52.item11.2.2 (.inr (.inr hc))
  inCore := h.rule52.item2
  full := h.rule52.item3
  quiet := h.rule52.item9
  cause := h.rule52.item10
  hash := h.rule52.item12h
  buffer := h.rule52.item12b
  wf := h.bufferWf

theorem InvParts.inv {s : State} (h : InvParts s) : Inv s := by
  obtain ⟨hcounters, hcore, hidle, hinCore, hfull, hquiet, hcause, hhash, hbuffer, hwf⟩ := h
  refine ⟨⟨hinCore, hfull, fun hp => ?item4, fun hp => ?item5, fun hp => ?item6, fun hp => ?item7, fun hp => ?item8,
    hquiet, hcause, ⟨fun hc => ?load, fun hc => ?expand, fun hc => ?zero⟩, hhash, hbuffer, fun hc => ?w,
    fun hc => ?written, fun hc => ?v⟩, fun hp => ?pad80Full, hwf⟩
  case item4 | item6 | item7 | item8 | pad80Full =>
    simp only [hp, CounterItems] at hcounters
    omega
  case item5 =>
    apply BitVec.eq_of_toNat_eq
    rcases hp with hp | hp | hp | hp <;> simp only [hp, CounterItems] at hcounters <;> omega
  case load | expand =>
    rw [hc] at hcore
    exact hcore.1
  case zero =>
    rcases hc with hc | hc | hc
    · rw [hc] at hcore
      exact hcore.1
    · rw [hc] at hcore
      exact hcore.1
    · exact hidle hc
  case w => rcases hc with hc | hc <;> rw [hc] at hcore <;> exact hcore.2
  case written =>
    rcases hc with hc | hc | hc <;> rw [hc] at hcore
    · exact hcore.2
    · exact hcore.1
    · exact hcore.2.1
  case v =>
    rcases hc with hc | hc <;> rw [hc] at hcore
    · exact hcore.2.2
    · exact hcore.2.2

/-! ### Each effect of a step keeps the invariant -/

theorem inv_wipe (s : State) : Inv (wipe s) :=
  SameEngine.inv (s := State.reset) (by constructor <;> rfl) Tests.reset_inv

theorem inv_enterFault {s : State} {k : Cause} (h : Inv s) (hk : k ≠ .none) : Inv (enterFault k s) :=
  InvParts.inv {
    counters := trivial
    core := trivial
    idle := fun _ => rfl
    inCore := fun hc => absurd rfl hc
    full := fun hn => absurd hn (by simp)
    quiet := fun _ => ⟨rfl, rfl⟩
    cause := by simp [hk]
    hash := by simp [PadPhase.busy]
    buffer := by simp
    wf := h.bufferWf }

/-- Eight written words hold values. -/
theorem someWords_ne_none (x : Vector Word 8) (i : Fin 8) : (someWords x)[i] ≠ none := by
  simp

theorem PadPhase.ne_of_busy {p : PadPhase} (h : p.busy = true) : p ≠ .fault ∧ p ≠ .done ∧ p ≠ .idle := by
  cases p <;> simp_all [PadPhase.busy]

/-- R210: the counters start at 0, and with no byte to come the engine pads at once. -/
theorem inv_startComputation {s : State} (h : Inv s) (hp : s.pp = .idle ∨ s.pp = .done) (len : Word) :
    Inv (startComputation len s) := by
  obtain ⟨hcp, -⟩ := h.parts.quiet (by rcases hp with hp | hp <;> rw [hp] <;> rfl)
  have hcause := h.parts.cause.mpr (by rcases hp with hp | hp <;> simp [hp])
  have hpp : (startComputation len s).pp = if len = 0 then .pad80 else .recv := rfl
  have hbusy : (startComputation len s).pp.busy = true := by rw [hpp]; split <;> rfl
  refine InvParts.inv ⟨?counters, ?core, fun _ => rfl, fun hc => absurd hcp hc, fun _ => hbusy, fun hq => absurd (hbusy.symm.trans hq) nofun,
    ⟨fun _ => (PadPhase.ne_of_busy hbusy).1, fun _ => hcause⟩, fun _ => someWords_ne_none initialHash, fun _ a ha => absurd ha (Nat.not_lt_zero a), h.bufferWf⟩
  case counters =>
    rw [hpp]
    show CounterItems _ 0 0 len.toNat 0
    split
    · next hlen => simp [CounterItems, hlen]
    · next hlen =>
      have hpos : len.toNat ≠ 0 := fun h0 => hlen (BitVec.eq_of_toNat_eq h0)
      exact ⟨by omega, fun _ => rfl, fun h64 => absurd h64 (by decide)⟩
  case core =>
    show CoreCells Written AllWritten s.cp 0 s.w s.v
    rw [hcp]
    trivial

/-- A byte appended while the core is idle (R160, R213): only the counters are left to check. -/
theorem inv_append {s t : State} (h : Inv s) (hc : s.cp = .cidle) (hn : s.n.val < 64) (hbusy : s.pp.busy = true)
    {x : Byte} {pp : PadPhase} {q : Fin 9} {cnt : Word} (hpp : pp.busy = true)
    (ht : t = { storeByte x s with pp := pp, q := q, cnt := cnt })
    (hcounters : CounterItems pp (s.n.val + 1) q.val s.len.toNat cnt.toNat) : Inv t := by
  subst ht
  have hn' := storeByte_n_val x hn
  have hparts := h.parts
  refine InvParts.inv ⟨hn'.symm ▸ hcounters, hparts.core, hparts.idle, fun hcp => absurd hc hcp, fun _ => hpp,
    fun hq => absurd (hpp.symm.trans hq) nofun, ⟨fun _ => (PadPhase.ne_of_busy hpp).1, fun _ => ?cause⟩,
    fun _ => hparts.hash (.inl hbusy), fun _ a ha => ?buffer, Memory.wf_write x h.bufferWf hn⟩
  case cause => exact hparts.cause.mpr (PadPhase.ne_of_busy hbusy).1
  case buffer =>
    have ha : a < s.n.val + 1 := hn' ▸ ha
    show (s.b.write s.n.val x).read a ≠ none
    rw [Memory.read_write]
    split
    · simp
    · exact hparts.buffer hbusy a (by omega)

/-- R44: a count below a length does not wrap when a byte is counted. -/
theorem toNat_succ_of_lt {x y : Word} (h : x.toNat < y.toNat) : (x + 1).toNat = x.toNat + 1 := by
  rw [BitVec.toNat_add]
  exact Nat.mod_eq_of_lt (Nat.lt_of_le_of_lt h y.isLt)

/-- R213: the byte is counted, and the last one starts the padding. -/
theorem inv_push {s : State} (h : Inv s) (hp : s.pp = .recv) (hc : s.cp = .cidle) (hn : s.n.val < 64) (x : Byte) :
    Inv (countByte (storeByte x s)) := by
  have hcounters := h.parts.counters
  rw [hp] at hcounters
  obtain ⟨hlt, hmod, -⟩ := hcounters
  have hcnt := toNat_succ_of_lt hlt
  refine inv_append h hc hn (by rw [hp]; rfl) (pp := if s.cnt + 1 = s.len then .pad80 else s.pp) (q := s.q) ?busy rfl ?counters
  case busy => rw [hp]; split <;> rfl
  case counters =>
    show CounterItems _ _ _ _ (s.cnt + 1).toNat
    rw [hcnt]
    split
    · next hlast =>
      rw [← hlast, hcnt]
      simp only [CounterItems, true_and]
      omega
    · next hmore =>
      have hne : s.cnt.toNat + 1 ≠ s.len.toNat := fun he => hmore (BitVec.eq_of_toNat_eq (hcnt.trans he))
      simp only [hp, CounterItems]
      omega

theorem inv_p80 {s t : State} (h : Inv s) (hp : s.pp = .pad80) (hc : s.cp = .cidle) (hn : s.n.val < 64)
    (ht : exec .p80 s = .next t) : Inv t := by
  have hcounters := h.parts.counters
  rw [hp] at hcounters
  rw [p80Result s hn] at ht
  refine inv_append h hc hn (by rw [hp]; rfl) ?busy (Host.Outcome.next.inj ht).symm ?counters
  case busy => split <;> rfl
  case counters =>
    obtain ⟨hcnt, hmod, -⟩ := hcounters
    split <;> simp only [CounterItems] <;> simp <;> omega

theorem inv_p00 {s t : State} (h : Inv s) (hp : s.pp = .pad00) (hc : s.cp = .cidle) (hn : s.n.val < 64)
    (ht : exec .p00 s = .next t) : Inv t := by
  have hcounters := h.parts.counters
  rw [hp] at hcounters
  rw [p00Result s hn, hp] at ht
  refine inv_append h hc hn (by rw [hp]; rfl) ?busy (Host.Outcome.next.inj ht).symm ?counters
  case busy => split <;> rfl
  case counters =>
    obtain ⟨hcnt, hmod⟩ := hcounters
    split <;> simp only [CounterItems] <;> simp <;> omega

theorem inv_plen {s t : State} (h : Inv s) (hp : s.pp = .padlen) (hc : s.cp = .cidle) (hn : s.n.val < 64)
    (ht : exec .plen s = .next t) : Inv t := by
  have hcounters := h.parts.counters
  rw [hp] at hcounters
  obtain ⟨hcnt, hq⟩ := hcounters
  have hq8 : s.q.val < 8 := by omega
  rw [plenResult s hn hq8] at ht
  refine inv_append h hc hn (by rw [hp]; rfl) (pp := s.pp) (by rw [hp]; rfl) (Host.Outcome.next.inj ht).symm ?counters
  rw [hp, q_succ_val hq8]
  exact ⟨hcnt, by omega⟩

/-- Whatever the core computes, it writes the cells (item 12). -/
theorem coreWrites_written (s : State) : CoreWrites Written AllWritten s where
  ldw _ := Option.some_ne_none _
  exp _ _ := Option.some_ne_none _
  initv hw := ⟨hw, someWords_ne_none _⟩
  rnd hw _ := ⟨hw, someWords_ne_none _⟩

/-- A core micro-operation but `FOLD` writes V, W, CP and T only: only the core's items are to be checked. -/
theorem inv_coreOp {s t : State} (h : Inv s) (hn : s.n.val = 64) (hc : s.cp ≠ .fold)
    (ht : exec (coreOp s.cp) s = .next t) : Inv t := by
  have hstep := exec_coreOp_step hc ht
  have hcells := h.parts.core.step (coreWrites_written s) hc ht
  have hbusy := h.parts.full hn
  have hidle := hstep.not_idle
  rw [hstep.frame] at hcells hidle ⊢
  exact InvParts.inv { h.parts with
    core := hcells
    idle := fun hcp => absurd hcp hidle
    inCore := fun _ => ⟨hbusy, hn⟩
    quiet := fun hq => absurd (hbusy.symm.trans hq) nofun }

/-- R194: the block is released; what was a full block of padding leaves the counters of an empty one. -/
theorem inv_fold {s t : State} (h : Inv s) (hc : s.cp = .fold) (ht : exec .fold s = .next t) : Inv t := by
  have hcore := h.parts.core
  have hcounters := h.parts.counters
  obtain ⟨hbusy, hn⟩ := h.parts.inCore (by simp [hc])
  rw [hc] at hcore
  rw [exec_fold] at ht
  cases ht
  have hphase : s.pp ≠ .fault ∧ (if s.pp = .padlen ∧ s.q.val = 8 then PadPhase.done else s.pp) ≠ .fault := by
    have hne := (PadPhase.ne_of_busy hbusy).1
    refine ⟨hne, ?_⟩
    split
    · nofun
    · exact hne
  exact InvParts.inv {
    counters := by
      show CounterItems (if s.pp = .padlen ∧ s.q.val = 8 then .done else s.pp) 0 s.q.val s.len.toNat s.cnt.toNat
      rw [hn] at hcounters
      cases hp : s.pp <;> rw [hp] at hcounters
      case idle | fault => trivial
      case recv => exact ⟨hcounters.1, fun _ => (hcounters.2.2 rfl).1.symm, fun h0 => absurd h0 (by decide)⟩
      case pad80 => exact ⟨hcounters.1, fun _ => (hcounters.2.2 rfl).symm, fun h0 => absurd h0 (by decide)⟩
      case pad00 => exact ⟨hcounters.1, by decide⟩
      case padlen =>
        have hq : s.q.val = 8 := Nat.add_left_cancel hcounters.2.symm
        rw [if_pos ⟨rfl, hq⟩]
        exact hcounters.1
      case done => exact hcounters
    core := trivial
    idle := fun _ => hcore.1
    inCore := fun hne => absurd rfl hne
    full := fun h0 => absurd (show 0 = 64 from h0) (by decide)
    quiet := fun _ => ⟨rfl, rfl⟩
    cause := ⟨fun _ => hphase.2, fun _ => h.parts.cause.mpr hphase.1⟩
    hash := fun _ => someWords_ne_none _
    buffer := fun _ a ha => absurd ha (Nat.not_lt_zero a)
    wf := h.bufferWf }

/-- An enabled micro-operation keeps the invariant. -/
theorem inv_microOp {s t : State} {i : Instr} (h : Inv s) (henabled : enabled s = some i) (ht : exec i s = .next t) :
    Inv t := by
  by_cases hn : s.n.val = 64
  · obtain rfl : coreOp s.cp = i := by simpa [h.rule52.enabled_eq, hn] using henabled
    by_cases hc : s.cp = .fold
    · rw [hc] at ht
      exact inv_fold h hc ht
    · exact inv_coreOp h hn hc ht
  · have hlt : s.n.val < 64 := by omega
    rcases enabled_some henabled with ⟨-, -, hfull, -⟩ | ⟨-, -, hfull, -⟩ | ⟨-, -, hfull, -⟩ | ⟨-, -, hfull, -⟩ |
      ⟨-, -, hfull, -⟩ | ⟨-, -, hfull⟩ | ⟨rfl, hc, -, hp⟩ | ⟨rfl, hc, -, hp⟩ | ⟨rfl, hc, -, hp⟩
    iterate 6 exact absurd hfull hn
    · exact inv_p80 h hp hc hlt ht
    · exact inv_p00 h hp hc hlt ht
    · exact inv_plen h hp hc hlt ht

/-! ### The obligations -/

/-- Settles O37: each item in the reset state. -/
theorem invariantAtReset : Obligations.InvariantAtReset := Tests.reset_inv

/-- Settles O38: each effect a step can have keeps the invariant. -/
theorem everyStepKeepsTheInvariant : Obligations.EveryStepKeepsTheInvariant := by
  intro s t h hstep
  cases step_effect hstep with
  | keeps same => exact same.inv h
  | wipes _ same => exact same.inv (inv_wipe s)
  | faults _ _ _ disp same => exact same.inv (inv_enterFault h (disposition_fault_cause disp))
  | starts len _ phase same => exact same.inv (inv_startComputation h phase len)
  | pushes x _ phase core room same => exact same.inv (inv_push h phase core room x)
  | performs i _ enabled run => exact inv_microOp ((consumeTurn_sameEngine s).inv h) enabled run

/-- The invariant along a run. -/
theorem inv_run {k : Nat} {s t : State} (h : Inv s) (hrun : run k s = .next t) : Inv t := by
  induction k generalizing s with
  | zero => cases hrun; exact h
  | succ k ih =>
    obtain ⟨u, hstep, hrest⟩ := run_succ_next hrun
    exact ih (everyStepKeepsTheInvariant s u h hstep) hrest

/-- Settles O39: the invariant along every run from reset, whatever the host presents and whosoever's turn it is. -/
theorem reachableStatesSatisfyR52 : Obligations.ReachableStatesSatisfyR52 := by
  intro words turns k t hrun
  exact (inv_run (SameEngine.inv (s := State.reset) (by constructor <;> rfl) Tests.reset_inv) hrun).rule52

/-- Under the invariant an enabled micro-operation is in its index range. -/
theorem Inv.inRange {s : State} {i : Instr} (h : Inv s) (henabled : enabled s = some i) : InRange i s := by
  have hcore := h.parts.core
  rcases enabled_some henabled with ⟨rfl, hc, -⟩ | ⟨rfl, hc, -⟩ | ⟨rfl, -⟩ | ⟨rfl, -⟩ | ⟨rfl, -⟩ | ⟨rfl, -⟩ |
    ⟨rfl, -, hn, -⟩ | ⟨rfl, -, hn, -⟩ | ⟨rfl, -, hn, hp⟩
  · rw [hc] at hcore
    exact hcore.1
  · rw [hc] at hcore
    exact hcore.1
  iterate 4 trivial
  · exact Nat.lt_of_le_of_ne (Nat.le_of_lt_succ s.n.isLt) hn
  · exact Nat.lt_of_le_of_ne (Nat.le_of_lt_succ s.n.isLt) hn
  · have hq := h.rule52.item8 hp
    exact ⟨by omega, by omega⟩

/-- Settles O40: only an index out of range stops a step, and the invariant keeps the indices in range. -/
theorem nothingStopsTheMachine : Obligations.NothingStopsTheMachine := by
  intro s h
  rcases step_cases s with ⟨i, henabled, -, hstep⟩ | ⟨cw, i, -, hdecode, -, hstep⟩ | ⟨cw, why, -, -, -, hstep⟩ |
    ⟨-, hstep⟩ | ⟨-, hstep⟩ | ⟨-, hstep⟩ <;> rw [hstep]
  · exact exec_exists_next (((consumeTurn_sameEngine s).inv h).inRange henabled)
  · exact exec_command_exists_next (decodeCommand_isMicroOp hdecode) _
  · exact execIllegal_exists_next _
  · exact ⟨_, rfl⟩
  · exact ⟨_, rfl⟩
  · exact ⟨_, rfl⟩

/-- Settles O41: each micro-operation's cells are among those its phase has written. -/
theorem noRuleReadsAnUnwrittenCell : Obligations.NoRuleReadsAnUnwrittenCell := by
  intro s h
  have hcore := h.parts.core
  obtain ⟨hldw, hexp, hinitv, hrnd, hfold, -⟩ := microOpSelection.2.2.1 s h.rule52
  refine ⟨fun he d hd => ?ldw, fun he i hi => ?exp, fun he => ?initv, fun he => ?rnd, fun he => ?fold,
    fun hp => h.parts.hash (.inr hp)⟩
  case ldw =>
    have hc := hldw.mp he
    obtain ⟨hbusy, hn⟩ := h.parts.inCore (by simp [hc])
    rw [hc] at hcore
    exact h.parts.buffer hbusy _ (by have := hcore.1; omega)
  case exp =>
    have hc := hexp.mp he
    rw [hc] at hcore
    exact hcore.2 i (by omega)
  case initv =>
    have hc := hinitv.mp he
    exact h.parts.hash (.inl (h.parts.inCore (by simp [hc])).1)
  case rnd =>
    have hc := hrnd.mp he
    rw [hc] at hcore
    exact ⟨hcore.2.2, hcore.1 s.t⟩
  case fold =>
    have hc := hfold.mp he
    rw [hc] at hcore
    exact fun i => ⟨h.parts.hash (.inl (h.parts.inCore (by simp [hc])).1) i, hcore.2.2 i⟩

end Sys2Proof.Machine
end

section
/-! PROOFS. What no step does to the phase (R38), to the block buffer (R35, R277), in FAULT (R247) and in DONE (R59). -/

namespace Sys2Proof.Machine

/-! ### The block buffer -/

/-- The byte an instruction stores at index N, if it stores one (R160, R213). -/
def storedByte (i : Instr) (s : State) : Option Byte :=
  match i with
  | .p80 => some 0x80
  | .p00 => some 0x00
  | .plen => some (lengthByte (bitLen s.len) s.q.val)
  | .pushb x => if s.pp = .recv ∧ s.cp = .cidle ∧ s.n.val < 64 then some x else none
  | _ => none

/-- The block buffer after an instruction other than `ABORT`: its byte is stored at N, where there is room. -/
theorem exec_b {i : Instr} {s t : State} (h : exec i s = .next t) (hi : i ≠ .abort) :
    (storedByte i s = none ∧ t.b = s.b) ∨
      ∃ x, storedByte i s = some x ∧ s.n.val < 64 ∧ t.b = s.b.write s.n.val x := by
  have hrange := inRange_of_exec_next h
  cases i with
  | abort => exact absurd rfl hi
  | nop | start | rdb | rdw | rds =>
    rw [exec_command rfl] at h
    rcases processCommand_next h with ⟨-, rfl⟩ | ⟨-, rfl⟩ | ⟨k, -, rfl⟩ | ⟨-, haccept⟩
    · exact .inl ⟨rfl, rfl⟩
    · exact .inl ⟨rfl, rfl⟩
    · exact .inl ⟨rfl, rfl⟩
    · cases haccept
      exact .inl ⟨rfl, rfl⟩
  | pushb x =>
    by_cases hroom : s.pp = .recv ∧ s.cp = .cidle ∧ s.n.val < 64
    · obtain ⟨hp, hc, hn⟩ := hroom
      rw [(pushbResult s x).1 hp hc hn] at h
      cases h
      exact .inr ⟨x, if_pos ⟨hp, hc, hn⟩, hn, rfl⟩
    · refine .inl ⟨if_neg hroom, ?_⟩
      rcases processCommand_next ((exec_pushb x s).symm.trans h) with ⟨-, rfl⟩ | ⟨-, rfl⟩ | ⟨k, -, rfl⟩ | ⟨hd, -⟩
      · rfl
      · rfl
      · rfl
      · exact absurd (accept_push hd) hroom
  | ldw =>
    rw [exec_ldw_of_lt hrange] at h
    cases h
    exact .inl ⟨rfl, rfl⟩
  | exp =>
    rw [exec_exp_of_le hrange] at h
    cases h
    exact .inl ⟨rfl, rfl⟩
  | initv | rnd | fold | disp =>
    cases h
    exact .inl ⟨rfl, rfl⟩
  | p80 =>
    rw [p80Result s hrange] at h
    cases h
    exact .inr ⟨_, rfl, hrange, rfl⟩
  | p00 =>
    rw [p00Result s hrange] at h
    cases h
    exact .inr ⟨_, rfl, hrange, rfl⟩
  | plen =>
    rw [exec_plen_of_missing hrange.2] at h
    obtain ⟨hn, rfl⟩ := appendByte_next h
    exact .inr ⟨_, rfl, hn, rfl⟩

theorem exec_b_read_stored {i : Instr} {s t : State} {x : Byte} (h : exec i s = .next t) (hi : i ≠ .abort)
    (hx : storedByte i s = some x) : s.n.val < 64 ∧ t.b.read s.n.val = some x := by
  rcases exec_b h hi with ⟨hnone, -⟩ | ⟨y, hy, hn, hb⟩
  · exact nomatch hnone.symm.trans hx
  · obtain rfl := Option.some.inj (hy.symm.trans hx)
    exact ⟨hn, by rw [hb, Memory.read_write_self]⟩

theorem exec_b_read_ne {i : Instr} {s t : State} (h : exec i s = .next t) (hi : i ≠ .abort) {a : Nat}
    (ha : a ≠ s.n.val) : t.b.read a = s.b.read a := by
  rcases exec_b h hi with ⟨-, hb⟩ | ⟨y, -, -, hb⟩
  · rw [hb]
  · rw [hb, Memory.read_write_ne _ _ ha]

theorem exec_b_of_storedByte_none {i : Instr} {s t : State} (h : exec i s = .next t) (hi : i ≠ .abort)
    (hx : storedByte i s = none) : t.b = s.b := by
  rcases exec_b h hi with ⟨-, hb⟩ | ⟨y, hy, -⟩
  · exact hb
  · exact nomatch hx.symm.trans hy

/-- Settles O30: the buffer keeps its bytes but for the byte stored at N, and `ABORT` empties it. -/
theorem whatStoresToTheBuffer : Obligations.WhatStoresToTheBuffer := by
  intro i s t h
  refine ⟨?p80, ?p00, ?plen, ?pushb, ?abort, fun hi a => exec_b_read_ne h hi, fun hi h80 h00 hlen hpush a => ?others⟩
  case p80 => rintro rfl; exact exec_b_read_stored h nofun rfl
  case p00 => rintro rfl; exact exec_b_read_stored h nofun rfl
  case plen => rintro rfl; exact exec_b_read_stored h nofun rfl
  case pushb =>
    rintro x rfl hp hc hn
    exact (exec_b_read_stored h nofun (if_pos ⟨hp, hc, hn⟩)).2
  case abort =>
    rintro rfl a
    obtain ⟨u, hu, hreset, -⟩ := abortResult s
    obtain rfl := Host.Outcome.next.inj (hu.symm.trans h)
    exact hreset.b a
  case others =>
    have hnone : storedByte i s = none := by
      cases i with
      | p80 => exact absurd rfl h80
      | p00 => exact absurd rfl h00
      | plen => exact absurd rfl hlen
      | pushb x =>
        refine if_neg fun ⟨hp, hc, hn⟩ => ?_
        rcases hpush x rfl with h' | h' | h'
        · exact h' hp
        · exact h' hc
        · omega
      | nop | start | rdb | rdw | rds | abort | ldw | exp | initv | rnd | fold | disp => rfl
    rw [exec_b_of_storedByte_none h hi hnone]

/-! ### The phases -/

/-- With no computation in progress no micro-operation is enabled. -/
theorem Inv.enabled_of_not_busy {s : State} (h : Inv s) (hp : s.pp.busy = false) : enabled s = none := by
  obtain ⟨hc, hn⟩ := h.parts.quiet hp
  rw [enabled_of_room hc (by omega)]
  cases hpp : s.pp <;> rw [hpp] at hp
  case idle | recv | done | fault => rfl
  case pad80 | pad00 | padlen => exact nomatch hp

/-- The phase changes that micro-operations make (R161, R162, R194). -/
def padTransitions : List (PadPhase × PadPhase) :=
  [(.pad80, .pad00), (.pad80, .padlen), (.pad00, .padlen), (.padlen, .done)]

/-- These changes are legal (R38), and none leaves RECV or leads to it. -/
theorem padTransitions_legal : ∀ c ∈ padTransitions,
    legalPhaseChange c.1 c.2 = true ∧ c.1 ≠ .recv ∧ c.2 ≠ .recv := by
  decide

/-- R160, R183, R193: a micro-operation keeps CNT, and PP but for the padding controller's own changes. -/
theorem exec_microOp_phase {i : Instr} {s t : State} (henabled : enabled s = some i) (h : exec i s = .next t) :
    t.cnt = s.cnt ∧ (t.pp = s.pp ∨ (s.pp, t.pp) ∈ padTransitions) := by
  have hrange := inRange_of_exec_next h
  rcases enabled_some henabled with ⟨rfl, -⟩ | ⟨rfl, -⟩ | ⟨rfl, -⟩ | ⟨rfl, -⟩ | ⟨rfl, -⟩ | ⟨rfl, -⟩ |
    ⟨rfl, -, -, hp⟩ | ⟨rfl, -, -, hp⟩ | ⟨rfl, -⟩
  · rw [exec_ldw_of_lt hrange] at h
    cases h
    exact ⟨rfl, .inl rfl⟩
  · rw [exec_exp_of_le hrange] at h
    cases h
    exact ⟨rfl, .inl rfl⟩
  · cases h
    exact ⟨rfl, .inl rfl⟩
  · cases h
    exact ⟨rfl, .inl rfl⟩
  · rw [exec_fold] at h
    cases h
    refine ⟨rfl, ?_⟩
    dsimp only
    split
    · next hlast => exact .inr (by rw [hlast.1]; decide)
    · exact .inl rfl
  · cases h
    exact ⟨rfl, .inl rfl⟩
  · rw [p80Result s hrange] at h
    cases h
    refine ⟨rfl, .inr ?_⟩
    dsimp only
    rw [hp]
    split <;> decide
  · rw [p00Result s hrange] at h
    cases h
    refine ⟨rfl, ?_⟩
    dsimp only
    rw [hp]
    split
    · exact .inr (by decide)
    · exact .inl rfl
  · rw [plenResult s hrange.1 hrange.2] at h
    cases h
    exact ⟨rfl, .inl rfl⟩

theorem legalPhaseChange_self (p : PadPhase) : legalPhaseChange p p = true := by
  cases p <;> rfl

/-! ### The obligations -/

/-- Settles O24: the clause of each command's result where the table holds it. -/
theorem heldCommandsChangeNothing : Obligations.HeldCommandsChangeNothing := fun s =>
  ⟨fun hpad => ⟨fun len => (startResult s len).2.2.1 hpad, fun j => (rdbResult s j).2.2.1 hpad,
    fun i => (rdwResult s i).2.2.1 hpad⟩, fun hp hwait x => (pushbResult s x).2.1 hp hwait⟩

/-- Settles O42: each effect's phases are on the list. -/
theorem onlyLegalPhaseChanges : Obligations.OnlyLegalPhaseChanges := by
  intro s t h hstep
  cases step_effect hstep with
  | keeps same => rw [same.pp]; exact legalPhaseChange_self s.pp
  | wipes _ same => rw [same.pp]; cases s.pp <;> rfl
  | faults _ _ _ disp same =>
    have hne := disposition_fault_phase disp
    rw [same.pp]
    cases hp : s.pp <;> simp_all [legalPhaseChange]
  | starts len _ phase same =>
    rw [same.pp]
    show legalPhaseChange s.pp (if len = 0 then .pad80 else .recv) = true
    rcases phase with hp | hp <;> rw [hp] <;> split <;> rfl
  | pushes x _ phase core room same =>
    rw [same.pp]
    show legalPhaseChange s.pp (if s.cnt + 1 = s.len then .pad80 else s.pp) = true
    rw [phase]
    split <;> rfl
  | performs i _ enabled run =>
    rcases (exec_microOp_phase (s := consumeTurn s) enabled run).2 with hp | hp
    · rw [hp]; exact legalPhaseChange_self s.pp
    · exact (padTransitions_legal _ hp).1

/-- Settles O43: while the core has the block, a byte is pushed nowhere and no padding micro-operation is enabled. -/
theorem bufferBelongsToTheCore : Obligations.BufferBelongsToTheCore := by
  intro s t h hc hstep
  cases step_effect hstep with
  | keeps same => exact .inl fun a => by rw [same.b]
  | wipes turn same => exact .inr ⟨turn, same.engineReset (wipe_engineReset s)⟩
  | faults _ _ _ _ same => exact .inl fun a => by rw [same.b]; rfl
  | starts len _ _ same => exact .inl fun a => by rw [same.b]; rfl
  | pushes x _ _ core _ _ => exact absurd core hc
  | performs i _ enabled run =>
    have hstores : storedByte i (consumeTurn s) = none ∧ i ≠ .abort := by
      rcases enabled_some enabled with ⟨rfl, -⟩ | ⟨rfl, -⟩ | ⟨rfl, -⟩ | ⟨rfl, -⟩ | ⟨rfl, -⟩ | ⟨rfl, hidle, -⟩ |
        ⟨rfl, hidle, -⟩ | ⟨rfl, hidle, -⟩ | ⟨rfl, hidle, -⟩
      iterate 5 exact ⟨rfl, nofun⟩
      iterate 4 exact absurd hidle hc
    exact .inl fun a => by rw [exec_b_of_storedByte_none run hstores.2 hstores.1]; rfl

/-- Settles O44: in FAULT no command is accepted but those that keep the engine or wipe it, and no micro-operation is
enabled. -/
theorem faultIsSticky : Obligations.FaultIsSticky := by
  intro s t h hp hstep
  cases step_effect hstep with
  | keeps same => exact .inl same
  | wipes turn same => exact .inr ⟨turn, same.engineReset (wipe_engineReset s)⟩
  | faults _ _ _ disp _ => exact absurd hp (disposition_fault_phase disp)
  | starts _ _ phase _ => rw [hp] at phase; simp at phase
  | pushes _ _ phase _ _ _ => rw [hp] at phase; cases phase
  | performs i _ enabled _ => exact nomatch (h.enabled_of_not_busy (by rw [hp]; rfl)).symm.trans enabled

theorem commandKind_push {d : Decoded} (h : commandKind d = .push) : ∃ x, d = .instr (.pushb x) := by
  cases d with
  | rejected => cases h
  | instr i =>
    cases i with
    | pushb x => exact ⟨x, rfl⟩
    | nop | start | rdb | rdw | rds | abort => cases h
    | ldw | exp | initv | rnd | fold | disp | p80 | p00 | plen => cases h

/-- Settles O45: no micro-operation is enabled, so a step is a command's or keeps the engine. -/
theorem digestStaysInDone : Obligations.DigestStaysInDone := by
  intro s t h hp hstep
  have hbusy : s.pp.busy = false := by rw [hp]; rfl
  have hnone := h.enabled_of_not_busy hbusy
  obtain ⟨hc, hn⟩ := h.parts.quiet hbusy
  refine ⟨hc, hn, by rw [quiescent, hnone]; rfl, ?_⟩
  cases step_effect hstep with
  | keeps same => exact .inl ⟨same.pp.trans hp, same.h⟩
  | wipes turn same => exact .inr (.inr (.inr ⟨turn, same.engineReset (wipe_engineReset s)⟩))
  | faults d k turn disp same =>
    refine .inr (.inr (.inl ⟨same.pp, ?_⟩))
    rw [same.cause, enterFault_cause]
    rw [hp] at disp
    cases hk : commandKind d with
    | always | start | read => rw [hk] at disp; cases disp
    | push =>
      rw [hk] at disp
      cases disp
      obtain ⟨x, rfl⟩ := commandKind_push hk
      exact .inl ⟨rfl, x, turn⟩
    | illegal =>
      rw [hk] at disp
      cases disp
      obtain ⟨why, rfl⟩ := turn.rejected_of_illegal hk
      exact .inr ⟨rfl, why, turn⟩
  | starts len turn _ same =>
    refine .inr (.inl ⟨⟨len, turn⟩, ?_, same.h⟩)
    rw [same.pp]
    by_cases hlen : len = 0
    · exact .inr (if_pos hlen)
    · exact .inl (if_neg hlen)
  | pushes x _ phase _ _ _ => rw [hp] at phase; cases phase
  | performs i _ enabled _ => exact nomatch hnone.symm.trans enabled

end Sys2Proof.Machine
end

section
/-! PROOFS. Message bytes never reach the sequencer (R283): two states that differ in them alone step alike. -/

namespace Sys2Proof.Machine

/-! ### A command word with its message byte erased -/

theorem eraseByte_opField (cw : CommandWord) : opField (eraseByte cw) = opField cw := by
  unfold eraseByte opField
  split
  · rw [BitVec.extractLsb'_and, show (0xFFFFFFFF00 : CommandWord).extractLsb' 32 8 = BitVec.allOnes 8 by decide,
      BitVec.and_allOnes]
  · rfl

theorem eraseByte_reserved (cw : CommandWord) :
    (argField (eraseByte cw)).extractLsb' 8 24 = (argField cw).extractLsb' 8 24 := by
  unfold eraseByte argField
  split
  · rw [BitVec.extractLsb'_and, BitVec.extractLsb'_and,
      show ((0xFFFFFFFF00 : CommandWord).extractLsb' 0 32).extractLsb' 8 24 = BitVec.allOnes 24 by decide,
      BitVec.and_allOnes]
  · rfl

/-- Words that are the same but for a message byte decode alike: to the same, or to two `PUSHB`s. -/
theorem decodeCommand_of_eraseByte_eq {cw cw' : CommandWord} (h : eraseByte cw' = eraseByte cw) :
    decodeCommand cw' = decodeCommand cw ∨
      ∃ x x', decodeCommand cw = .instr (.pushb x) ∧ decodeCommand cw' = .instr (.pushb x') := by
  have hop : opField cw' = opField cw := by rw [← eraseByte_opField, h, eraseByte_opField]
  have hreserved : (argField cw').extractLsb' 8 24 = (argField cw).extractLsb' 8 24 := by
    rw [← eraseByte_reserved, h, eraseByte_reserved]
  by_cases h2 : opField cw = 0x02
  · have h2' : opField cw' = 0x02 := hop.trans h2
    by_cases hzero : (argField cw).extractLsb' 8 24 = 0#24
    · exact .inr ⟨(argField cw).extractLsb' 0 8, (argField cw').extractLsb' 0 8, by simp [decodeCommand, h2, hzero],
        by simp [decodeCommand, h2', hreserved, hzero]⟩
    · exact .inl (by simp [decodeCommand, h2, h2', hreserved, hzero])
  · rw [eraseByte, eraseByte, if_neg h2, if_neg (hop ▸ h2)] at h
    exact .inl (by rw [h])

/-! ### What is the same in two such states -/

theorem SameControl.enabled_eq {s s' : State} (h : SameControl s s') : enabled s' = enabled s := by
  rw [enabled_eq_inWords, enabled_eq_inWords, enabledInWords, enabledInWords, h.cp, h.n, h.pp]

theorem SameControl.nextTurn_eq {s s' : State} (h : SameControl s s') : nextTurn s' = nextTurn s := by
  have hport : s'.port.isSome = s.port.isSome := by simpa using congrArg Option.isSome h.port
  have hhost : s'.host.isEmpty = s.host.isEmpty := by simpa using congrArg List.isEmpty h.host
  rw [nextTurn, nextTurn, h.sched, fairTurn, fairTurn, h.enabled_eq, hport, hhost]

/-- A step performs a micro-operation exactly on the engine's turn with one enabled: no command word decodes to one. -/
theorem isMicroStep_iff (s : State) : isMicroStep s = true ↔ nextTurn s = .engine ∧ enabled s ≠ none := by
  rw [isMicroStep]
  cases hturn : nextTurn s with
  | engine =>
    cases henabled : enabled s with
    | none => simp [fetch, henabled]
    | some i => simp [fetch, henabled, enabled_isMicroOp henabled]
  | command =>
    cases hport : s.port with
    | none => simp [fetch, hport]
    | some cw =>
      cases hdecode : decodeCommand cw with
      | rejected why => simp [fetch, hport, hdecode]
      | instr i => simp [fetch, hport, hdecode, decodeCommand_isMicroOp hdecode]
  | present => simp [fetch]
  | rst => simp [fetch]

theorem isMicroStep_of_enabled {s : State} {i : Instr} (hturn : nextTurn s = .engine) (henabled : enabled s = some i) :
    isMicroStep s = true :=
  (isMicroStep_iff s).mpr ⟨hturn, by simp [henabled]⟩

theorem isMicroStep_eq_false {s : State} (h : nextTurn s ≠ .engine ∨ enabled s = none) : isMicroStep s = false := by
  rw [Bool.eq_false_iff, Ne, isMicroStep_iff]
  rintro ⟨hturn, henabled⟩
  exact h.elim (absurd hturn) henabled

theorem SameControl.isMicroStep_eq {s s' : State} (h : SameControl s s') : isMicroStep s' = isMicroStep s := by
  rw [Bool.eq_iff_iff, isMicroStep_iff, isMicroStep_iff, h.nextTurn_eq, h.enabled_eq]

theorem SameControl.port_some {s s' : State} (h : SameControl s s') {cw : CommandWord} (hp : s.port = some cw) :
    ∃ cw', s'.port = some cw' ∧ eraseByte cw' = eraseByte cw := by
  simpa [hp] using h.port

theorem SameControl.port_none {s s' : State} (h : SameControl s s') (hp : s.port = none) : s'.port = none := by
  simpa [hp] using h.port

/-! ### What each thing a step does keeps the same -/

section
variable {s s' : State} (h : SameControl s s')
include h

theorem SameControl.consumeTurn : SameControl (consumeTurn s) (consumeTurn s') := by
  constructor <;> simp [h.pp, h.cp, h.t, h.n, h.q, h.len, h.cnt, h.cause, h.sched, h.port, h.host]

theorem SameControl.respond (e e' : Bool) (d d' : Word) : SameControl (respond e d s) (respond e' d' s') := by
  constructor <;> simp [h.pp, h.cp, h.t, h.n, h.q, h.len, h.cnt, h.cause, h.sched, h.host]

theorem SameControl.enterFault (k : Cause) : SameControl (enterFault k s) (enterFault k s') := by
  constructor <;> simp [h.len, h.cnt, h.sched, h.port, h.host]

theorem SameControl.wipe : SameControl (wipe s) (wipe s') := by
  constructor <;> simp [h.sched, h.port, h.host]

theorem SameControl.resetInput : SameControl (resetInput s) (resetInput s') :=
  have hwipe := h.wipe
  ⟨rfl, rfl, rfl, rfl, rfl, rfl, rfl, rfl, hwipe.sched, rfl, hwipe.host⟩

theorem SameControl.startComputation (len : Word) : SameControl (startComputation len s) (startComputation len s') :=
  ⟨rfl, h.cp, rfl, rfl, rfl, rfl, rfl, h.cause, h.sched, h.port, h.host⟩

theorem SameControl.push (x x' : Byte) : SameControl (countByte (storeByte x s)) (countByte (storeByte x' s')) := by
  refine ⟨?_, h.cp, h.t, by simp [countByte, h.n], h.q, h.len, by simp [countByte, h.cnt], h.cause, h.sched, h.port, h.host⟩
  show (if s'.cnt + 1 = s'.len then PadPhase.pad80 else s'.pp) = if s.cnt + 1 = s.len then .pad80 else s.pp
  rw [h.cnt, h.len, h.pp]

/-- The host presents its next word in both, or in neither. -/
theorem SameControl.presentNext : SameControl (presentNext s) (presentNext s') := by
  have hhost := h.host
  cases hp : s.port with
  | some cw =>
    obtain ⟨cw', hp', -⟩ := h.port_some hp
    rwa [presentNext_of_port hp, presentNext_of_port hp']
  | none =>
    have hp' := h.port_none hp
    cases hw : s.host with
    | nil =>
      have hw' : s'.host = [] := by simpa [hw] using hhost
      rwa [presentNext_of_empty hp hw, presentNext_of_empty hp' hw']
    | cons cw ws =>
      rw [hw, List.map_cons] at hhost
      obtain ⟨cw', ws', hw', hcw, hws⟩ := List.map_eq_cons_iff.mp hhost
      rw [presentNext_of_host hp hw, presentNext_of_host hp' hw']
      exact ⟨h.pp, h.cp, h.t, h.n, h.q, h.len, h.cnt, h.cause, h.sched, congrArg some hcw, hws⟩

/-- A command is disposed of alike, and its accepted forms decide what is left. -/
theorem SameControl.processCommand {c : CommandKind} {f f' : State → Result} {t t' : State}
    (hf : f s = .next t → f' s' = .next t' → SameControl t t') (ht : processCommand c f s = .next t)
    (ht' : processCommand c f' s' = .next t') : SameControl t t' := by
  have hdisp : disposition c s'.pp s'.cp s'.n = disposition c s.pp s.cp s.n := by rw [h.pp, h.cp, h.n]
  cases hd : disposition c s.pp s.cp s.n with
  | hold =>
    rw [processCommand_hold f hd] at ht
    rw [processCommand_hold f' (hdisp.trans hd)] at ht'
    cases ht
    cases ht'
    exact h
  | reject =>
    rw [processCommand_reject f hd] at ht
    rw [processCommand_reject f' (hdisp.trans hd)] at ht'
    cases ht
    cases ht'
    exact h.respond _ _ _ _
  | fault k =>
    rw [processCommand_fault f hd] at ht
    rw [processCommand_fault f' (hdisp.trans hd)] at ht'
    cases ht
    cases ht'
    exact (h.enterFault k).respond _ _ _ _
  | accept =>
    rw [processCommand_accept f hd] at ht
    rw [processCommand_accept f' (hdisp.trans hd)] at ht'
    exact hf ht ht'

theorem SameControl.exec_pushb {x x' : Byte} {t t' : State} (ht : exec (.pushb x) s = .next t)
    (ht' : exec (.pushb x') s' = .next t') : SameControl t t' := by
  rw [exec_command rfl] at ht ht'
  refine h.processCommand (fun haccept haccept' => ?_) ht ht'
  rw [acceptedForm_pushb_next haccept, acceptedForm_pushb_next haccept']
  exact (h.push x x').respond _ _ _ _

theorem SameControl.exec_command {i : Instr} (hi : i.isMicroOp = false) {t t' : State} (ht : exec i s = .next t)
    (ht' : exec i s' = .next t') : SameControl t t' := by
  cases i with
  | pushb x => exact h.exec_pushb ht ht'
  | nop | rdb | rdw | rds =>
    rw [Machine.exec_command rfl] at ht ht'
    refine h.processCommand (fun haccept haccept' => ?_) ht ht'
    cases haccept
    cases haccept'
    exact h.respond _ _ _ _
  | start len =>
    rw [Machine.exec_command rfl] at ht ht'
    refine h.processCommand (fun haccept haccept' => ?_) ht ht'
    cases haccept
    cases haccept'
    exact (h.startComputation len).respond _ _ _ _
  | abort =>
    rw [Machine.exec_command rfl] at ht ht'
    refine h.processCommand (fun haccept haccept' => ?_) ht ht'
    cases haccept
    cases haccept'
    exact h.wipe.respond _ _ _ _
  | ldw | exp | initv | rnd | fold | disp | p80 | p00 | plen => exact Bool.noConfusion hi

/-- R160, R183, R193: a micro-operation's effect on the sequencer and the counters depends on nothing else. -/
theorem SameControl.exec_microOp {i : Instr} (hi : i.isMicroOp = true) {t t' : State} (ht : exec i s = .next t)
    (ht' : exec i s' = .next t') : SameControl t t' := by
  have hr := inRange_of_exec_next ht
  have hr' := inRange_of_exec_next ht'
  cases i with
  | nop | start | pushb | rdb | rdw | rds | abort => exact Bool.noConfusion hi
  | ldw =>
    rw [exec_ldw_of_lt hr] at ht
    rw [exec_ldw_of_lt hr'] at ht'
    cases ht
    cases ht'
    exact ⟨h.pp, by simp only [h.cp, h.t], by simp only [h.t], h.n, h.q, h.len, h.cnt, h.cause, h.sched, h.port, h.host⟩
  | exp =>
    rw [exec_exp_of_le hr] at ht
    rw [exec_exp_of_le hr'] at ht'
    cases ht
    cases ht'
    exact ⟨h.pp, by simp only [h.cp, h.t], by simp only [h.t], h.n, h.q, h.len, h.cnt, h.cause, h.sched, h.port, h.host⟩
  | initv =>
    cases ht
    cases ht'
    exact ⟨h.pp, rfl, rfl, h.n, h.q, h.len, h.cnt, h.cause, h.sched, h.port, h.host⟩
  | rnd =>
    rw [exec_rnd] at ht ht'
    cases ht
    cases ht'
    exact ⟨h.pp, by simp only [h.cp, h.t], by simp only [h.t], h.n, h.q, h.len, h.cnt, h.cause, h.sched, h.port, h.host⟩
  | fold =>
    rw [exec_fold] at ht ht'
    cases ht
    cases ht'
    exact ⟨by simp only [h.pp, h.q], rfl, h.t, rfl, h.q, h.len, h.cnt, h.cause, h.sched, h.port, h.host⟩
  | disp =>
    cases ht
    cases ht'
    exact ⟨h.pp, rfl, rfl, h.n, h.q, h.len, h.cnt, h.cause, h.sched, h.port, h.host⟩
  | p80 =>
    rw [p80Result s hr] at ht
    rw [p80Result s' hr'] at ht'
    cases ht
    cases ht'
    exact ⟨by simp only [h.n], h.cp, h.t, by simp only [h.n], by simp only [h.n, h.q], h.len, h.cnt, h.cause, h.sched,
      h.port, h.host⟩
  | p00 =>
    rw [p00Result s hr] at ht
    rw [p00Result s' hr'] at ht'
    cases ht
    cases ht'
    exact ⟨by simp only [h.n, h.pp], h.cp, h.t, by simp only [h.n], by simp only [h.n, h.q], h.len, h.cnt, h.cause,
      h.sched, h.port, h.host⟩
  | plen =>
    rw [plenResult s hr.1 hr.2] at ht
    rw [plenResult s' hr'.1 hr'.2] at ht'
    cases ht
    cases ht'
    exact ⟨h.pp, h.cp, h.t, by simp only [h.n], by simp only [h.q], h.len, h.cnt, h.cause, h.sched, h.port, h.host⟩

/-- Two such states step to two such states. -/
theorem SameControl.step {t t' : State} (ht : step s = .next t) (ht' : step s' = .next t') : SameControl t t' := by
  have hsame := h.consumeTurn
  rcases step_cases s with ⟨i, henabled, hturn, hstep⟩ | ⟨cw, i, hport, hdecode, hturn, hstep⟩ |
    ⟨cw, why, hport, hdecode, hturn, hstep⟩ | ⟨hturn, hstep⟩ | ⟨hturn, hstep⟩ | ⟨hidle, hstep⟩ <;> rw [hstep] at ht
  · rw [step_engine (h.nextTurn_eq.trans hturn) (h.enabled_eq.trans henabled)] at ht'
    exact hsame.exec_microOp (enabled_isMicroOp henabled) ht ht'
  · obtain ⟨cw', hport', herase⟩ := h.port_some hport
    have hturn' := h.nextTurn_eq.trans hturn
    rcases decodeCommand_of_eraseByte_eq herase with heq | ⟨x, x', hx, hx'⟩
    · rw [step_command hturn' hport' (heq.trans hdecode)] at ht'
      exact hsame.exec_command (decodeCommand_isMicroOp hdecode) ht ht'
    · obtain rfl := Decoded.instr.inj (hdecode.symm.trans hx)
      rw [step_command hturn' hport' hx'] at ht'
      exact hsame.exec_pushb ht ht'
  · obtain ⟨cw', hport', herase⟩ := h.port_some hport
    rcases decodeCommand_of_eraseByte_eq herase with heq | ⟨x, x', hx, -⟩
    · rw [step_rejected (h.nextTurn_eq.trans hturn) hport' (heq.trans hdecode)] at ht'
      refine hsame.processCommand (fun haccept haccept' => ?_) ht ht'
      cases haccept
      cases haccept'
      exact hsame
    · exact nomatch hdecode.symm.trans hx
  · rw [step_present (h.nextTurn_eq.trans hturn)] at ht'
    cases ht
    cases ht'
    exact hsame.presentNext
  · rw [step_rst (h.nextTurn_eq.trans hturn)] at ht'
    cases ht
    cases ht'
    exact hsame.resetInput
  · have hidle' : (nextTurn s' = .engine ∧ enabled s' = none) ∨ (nextTurn s' = .command ∧ s'.port = none) := by
      rw [h.nextTurn_eq, h.enabled_eq]
      exact hidle.imp_right fun ⟨hturn, hport⟩ => ⟨hturn, h.port_none hport⟩
    rw [step_idle hidle'] at ht'
    cases ht
    cases ht'
    exact hsame

end

/-- Settles O48: the turn and the enabled micro-operation are the same in both states, so the steps are of one kind, and
each kind keeps the relation. -/
theorem controlIgnoresMessageBytes : Obligations.ControlIgnoresMessageBytes := by
  intro s s' t _ hinv' h hstep
  obtain ⟨t', hstep'⟩ := nothingStopsTheMachine s' hinv'
  exact ⟨h.isMicroStep_eq, h.enabled_eq, t', hstep', h.step hstep hstep'⟩

end Sys2Proof.Machine
end

section
/-! PROOFS. The blocks of the padded message (R144, R145), and the digest read word by word (R74). -/

namespace Sys2Proof.Machine

/-! ### The blocks -/

/-- R144: the padded message is its blocks' 64 bytes each. -/
theorem pad_length_eq (m : List Byte) : (pad m).length = 64 * blockCount m.length :=
  (pad_length m).trans (pad_length_blocks m)

theorem block_length {m : List Byte} {k : Nat} (hk : k < blockCount m.length) : (block m k).length = 64 := by
  rw [block, List.length_take, List.length_drop, pad_length_eq]
  omega

/-- The first blocks, joined, are the bytes before the next block. -/
theorem flatten_blocks_eq_take (m : List Byte) (k : Nat) :
    ((List.range k).map (block m)).flatten = (pad m).take (64 * k) := by
  induction k with
  | zero => simp
  | succ k ih =>
    rw [List.range_succ, List.map_append, List.flatten_append, ih, Nat.mul_succ, List.take_add]
    simp [block]

/-- R143: the length field determines the number written in it. -/
theorem be64_injective {x y : BitVec 64} (h : be64 x = be64 y) : x = y := by
  have hbyte (q : Nat) (hq : q < 8) : lengthByte x q = lengthByte y q := by
    have := congrArg (fun l => l.getD q 0) h
    simpa [be64, List.getD_eq_getElem?_getD, hq] using this
  apply BitVec.eq_of_getLsbD_eq
  intro i hi
  have hq := hbyte (7 - i / 8) (by omega)
  have hbit := congrArg (fun b => b.getLsbD (i % 8)) hq
  have h8 : i % 8 < 8 := Nat.mod_lt _ (by decide)
  have hi' : 56 - 8 * (7 - i / 8) + i % 8 = i := by omega
  simpa [lengthByte, BitVec.getLsbD_extractLsb', h8, hi'] using hbit

/-- Messages with the same padded sequence have the same length field, and so the same bytes before it. -/
theorem pad_injective {m m' : List Byte} (hm : m.length < 2 ^ 32) (hm' : m'.length < 2 ^ 32) (h : pad m = pad m') :
    m = m' := by
  have hlength : m.length = m'.length := by
    have hfield := List.append_inj_right' h (by simp)
    have hbits := congrArg BitVec.toNat (be64_injective hfield)
    rw [BitVec.toNat_ofNat, BitVec.toNat_ofNat] at hbits
    omega
  calc m = (pad m).take m.length := by simp [pad]
    _ = (pad m').take m'.length := by rw [h, hlength]
    _ = m' := by simp [pad]

/-- Settles O52: the blocks are consecutive pieces of the padded message, which ends with its length. -/
theorem blocksAreThePaddedMessage : Obligations.BlocksAreThePaddedMessage := by
  intro m hm
  refine ⟨?joined, fun blk hblk => ?length, by simp [blocks, blockCount], fun m' hm' => pad_injective hm hm'⟩
  case joined =>
    rw [blocks, flatten_blocks_eq_take, ← pad_length_eq, List.take_length]
  case length =>
    obtain ⟨k, hk, rfl⟩ := List.mem_map.mp hblk
    exact block_length (List.mem_range.mp hk)

/-! ### The digest word by word -/

/-- Settles O55: `RDW` answers the word, the four `RDB`s its bytes. -/
theorem wordViewOfTheDigest : Obligations.WordViewOfTheDigest := by
  intro s i x hp hx
  have hvalue (k : Nat) : ((wordByte x k).setWidth 32).toNat = (wordByte x k).toNat :=
    BitVec.toNat_setWidth_of_le (by decide)
  refine ⟨fun k => (wordByte x k).setWidth 32, ?word, fun k hk => ⟨?range, ?byte⟩, ?number⟩
  case word =>
    rw [exec_rdw, processCommand_accept _ (disposition_read_accept s.cp s.n hp),
      readH_of_some (i := ⟨i.toNat, i.isLt⟩) hx]
    rfl
  case range =>
    rw [hvalue]
    exact (wordByte x k).isLt
  case byte =>
    have hj : (BitVec.ofNat 5 (4 * i.toNat + k)).toNat = 4 * i.toNat + k := by
      have := i.isLt
      rw [BitVec.toNat_ofNat]
      omega
    have hcell : (⟨i.toNat, i.isLt⟩ : Fin 8).val = (BitVec.ofNat 5 (4 * i.toNat + k)).toNat / 4 := by
      rw [hj]
      dsimp only
      omega
    rw [exec_rdb, processCommand_accept _ (disposition_read_accept s.cp s.n hp), digestByte_of_some hcell hx, hj,
      show (4 * i.toNat + k) % 4 = k by omega]
    rfl
  case number =>
    simp only [hvalue]
    rw [← wordOfBytes_toNat, wordOfBytes_wordByte]

end Sys2Proof.Machine
end

section
/-! PROOFS. The compression core over one block: the schedule (R182), the rounds and the add-back (R195). -/

namespace Sys2Proof.Machine

/-- R182: the word of the schedule of `blk`. -/
def ScheduleWord (blk : List Byte) (i : Fin 64) (c : Option Word) : Prop := c = some ((schedule blk).getD i.val 0)

/-- R195: the working variables before round `r`, from the hash state `hash`. -/
def RoundWords (hash : Vector Word 8) (blk : List Byte) (r : Nat) (_ : Vector (Option Word) 64)
    (v : Vector (Option Word) 8) : Prop :=
  v = someWords (roundsUpTo hash (schedule blk) r)

/-- How far the core is with a block, from a hash state (R182, R195). -/
abbrev CompressionProgress (hash : Vector Word 8) (blk : List Byte) (s : State) : Prop :=
  CoreCells (ScheduleWord blk) (RoundWords hash blk) s.cp s.t s.w s.v

/-- A full block, the bytes `blk`, that the core is compressing into the hash state `hash`. -/
structure InCore (hash : Vector Word 8) (blk : List Byte) (s : State) : Prop where
  busy : s.pp.busy = true
  full : s.n.val = 64
  words : hashWords s = hash
  buffer : ∀ a, a < 64 → s.b.read a = some (blk.getD a 0)
  progress : CompressionProgress hash blk s

/-- The word that `LDW` reads is the block's. -/
theorem InCore.memRead4_eq {hash : Vector Word 8} {blk : List Byte} {s : State} (h : InCore hash blk s)
    (ht : s.t.val < 16) : memRead4 s (4 * s.t.val) = (schedule blk).getD s.t.val 0 := by
  rw [schedule_getD_block blk ht]
  exact memRead4_of_some (h.buffer _ (by omega)) (h.buffer _ (by omega)) (h.buffer _ (by omega)) (h.buffer _ (by omega))

/-- The word that `EXP` computes is the schedule's. -/
theorem expandWord_readWBack {blk : List Byte} {s : State} (ht : 16 ≤ s.t.val)
    (hw : ∀ i : Fin 64, i.val < s.t.val → s.w[i] = some ((schedule blk).getD i.val 0)) :
    expandWord (readWBack s 2) (readWBack s 7) (readWBack s 15) (readWBack s 16) = (schedule blk).getD s.t.val 0 := by
  have hback (d : Nat) (hd : 0 < d) (hd' : d ≤ 16) : readWBack s d = (schedule blk).getD (s.t.val - d) 0 :=
    readWBack_of_some (i := ⟨s.t.val - d, by omega⟩) (Nat.sub_add_cancel (by omega)) (hw _ (by dsimp only; omega))
  rw [schedule_getD_expand blk ht s.t.isLt, hback 2 (by decide) (by decide), hback 7 (by decide) (by decide),
    hback 15 (by decide) (by decide), hback 16 (by decide) (by decide)]

section
variable {hash : Vector Word 8} {blk : List Byte} {s t : State} (h : InCore hash blk s)
include h

/-- The core's micro-operations write the words of the functional layer. -/
theorem InCore.coreWrites : CoreWrites (ScheduleWord blk) (RoundWords hash blk) s where
  ldw hlt := congrArg some (h.memRead4_eq hlt)
  exp hle hw := congrArg some (expandWord_readWBack hle hw)
  initv _ := congrArg someWords h.words
  rnd hw hv := by
    rw [workingWords_of_someWords hv, readW_of_some (hw s.t)]
    rfl

/-- R194: the last micro-operation leaves the compression's result. -/
theorem InCore.fold (hc : s.cp = .fold) : exec .fold s = .next { s with
    h := someWords (compress hash blk)
    n := 0
    cp := .cidle
    pp := if s.pp = .padlen ∧ s.q.val = 8 then .done else s.pp } := by
  have hprogress := h.progress
  rw [CompressionProgress, hc] at hprogress
  rw [exec_fold, h.words, workingWords_of_someWords hprogress.2, compress]

/-- The core's micro-operation is in its range, and before the add-back it goes on with the block. -/
theorem InCore.exec_coreOp (hc : s.cp ≠ .fold) : ∃ t, exec (coreOp s.cp) s = .next t ∧ CoreStep s t ∧
    CompressionProgress hash blk t := by
  have hprogress := h.progress
  have hrange : InRange (coreOp s.cp) s := by
    unfold CompressionProgress at hprogress
    cases hcp : s.cp <;> rw [hcp] at hprogress
    case load | expand => exact hprogress.1
    case cidle | init | round | fold => trivial
  obtain ⟨t, ht⟩ := exec_exists_next hrange
  exact ⟨t, ht, exec_coreOp_step hc ht, hprogress.step h.coreWrites hc ht⟩

theorem InCore.enabled_eq : enabled s = some (coreOp s.cp) := enabled_of_full h.full fun _ => h.busy

/-- The block stays the core's. -/
theorem InCore.of_coreStep (hstep : CoreStep s t) (hprogress : CompressionProgress hash blk t) : InCore hash blk t := by
  rw [hstep.frame] at hprogress ⊢
  exact ⟨h.busy, h.full, h.words, h.buffer, hprogress⟩

theorem InCore.consumeTurn : InCore hash blk (consumeTurn s) := ⟨h.busy, h.full, h.words, h.buffer, h.progress⟩

end

/-! ### Runs on the engine's turns -/

/-- A run goes on from where a shorter one ended. -/
theorem run_add {j : Nat} {s u : State} (h : run j s = .next u) (k : Nat) : run (j + k) s = run k u := by
  induction j generalizing s with
  | zero => cases h; rw [Nat.zero_add]
  | succ j ih =>
    obtain ⟨v, hstep, hrest⟩ := run_succ_next h
    rw [Nat.add_right_comm, run_succ_of_next hstep, ih hrest]

theorem microSteps_add {j : Nat} {s u : State} (h : run j s = .next u) (k : Nat) :
    microSteps (j + k) s = microSteps j s + microSteps k u := by
  induction j generalizing s with
  | zero => cases h; rw [Nat.zero_add, microSteps, Nat.zero_add]
  | succ j ih =>
    obtain ⟨v, hstep, hrest⟩ := run_succ_next h
    rw [Nat.add_right_comm, microSteps_succ_of_next hstep, microSteps_succ_of_next hstep, ih hrest, Nat.add_assoc]

/-- An engine's turn with a micro-operation enabled is one micro-operation. -/
theorem run_one_engine {s t : State} {i : Instr} {rest : List Turn} (hsched : s.sched = .engine :: rest)
    (henabled : enabled s = some i) (h : exec i (consumeTurn s) = .next t) :
    run 1 s = .next t ∧ microSteps 1 s = 1 := by
  have hturn := nextTurn_of_cons hsched
  have hstep : step s = .next t := (step_engine hturn henabled).trans h
  have hmicro := isMicroStep_of_enabled hturn henabled
  exact ⟨run_succ_of_next hstep, by rw [microSteps_succ_of_next hstep, if_pos hmicro]; rfl⟩

/-- Turns of the engine before the add-back are micro-operations that go on with the block. -/
theorem InCore.run {hash : Vector Word 8} {blk : List Byte} {j : Nat} {s : State} {rest : List Turn}
    (h : InCore hash blk s) (hj : coreDone s.cp s.t + j ≤ 130) (hsched : s.sched = List.replicate j .engine ++ rest) :
    ∃ t, run j s = .next t ∧ microSteps j s = j ∧ InCore hash blk t ∧ coreDone t.cp t.t = coreDone s.cp s.t + j ∧
      t = { s with v := t.v, w := t.w, cp := t.cp, t := t.t, sched := rest } := by
  induction j generalizing s with
  | zero =>
    obtain rfl : s.sched = rest := hsched
    exact ⟨s, rfl, rfl, h, rfl, rfl⟩
  | succ j ih =>
    have hc : s.cp ≠ .fold := by
      intro hc
      rw [hc, coreDone] at hj
      omega
    obtain ⟨u, hexec, hcore, hprogress⟩ := h.consumeTurn.exec_coreOp hc
    obtain ⟨hrun, hmicro⟩ := run_one_engine hsched h.enabled_eq hexec
    have hdone : coreDone u.cp u.t = coreDone s.cp s.t + 1 := hcore.done
    have husched : u.sched = List.replicate j .engine ++ rest := by
      rw [hcore.frame, consumeTurn_of_cons hsched]
      rfl
    obtain ⟨t, hrest, hmicros, ht, hdone', hframe⟩ := ih (h.consumeTurn.of_coreStep hcore hprogress) (by omega) husched
    refine ⟨t, ?_, ?_, ht, by omega, ?_⟩
    · rw [Nat.add_comm, run_add hrun, hrest]
    · rw [Nat.add_comm, microSteps_add hrun, hmicro, hmicros]
    · rw [hframe, hcore.frame]
      rfl

/-- Settles O56: after `DISP` the first 64 of the block's micro-operations load and expand the schedule. -/
theorem schedulerDeliversTheSchedule : Obligations.SchedulerDeliversTheSchedule := by
  intro s blk hc ht hn hbusy hbuffer
  have hstart : InCore (hashWords s) blk { s with sched := List.replicate 64 .engine } :=
    ⟨hbusy, hn, rfl, hbuffer, by
      show CoreCells _ _ s.cp s.t s.w s.v
      rw [hc]
      exact ⟨by omega, fun i hi => by omega⟩⟩
  have hzero : coreDone s.cp s.t = 1 := by rw [hc, coreDone, ht]
  obtain ⟨t, hrun, -, hcore, hdone, -⟩ := hstart.run (j := 64) (rest := []) (by dsimp only; omega)
    (List.append_nil _).symm
  have hdone : coreDone t.cp t.t = 65 := by rw [hdone]; dsimp only; omega
  have hprogress := hcore.progress
  have hinit := init_of_coreDone hdone
  rw [CompressionProgress, hinit] at hprogress
  exact ⟨t, hrun, hinit, hprogress.1, hprogress.2⟩

/-- Settles O57: 130 micro-operations lead to the add-back, which is the last. -/
theorem oneCompression : Obligations.OneCompression := by
  intro s blk hash hc hn hbusy hhash hbuffer s₀
  have hstart : InCore hash blk s₀ :=
    ⟨hbusy, hn, hashWords_of_someWords hhash, hbuffer, by
      show CoreCells _ _ s.cp s.t s.w s.v
      rw [hc]
      trivial⟩
  have hzero : coreDone s₀.cp s₀.t = 0 := by
    show coreDone s.cp s.t = 0
    rw [hc]
    rfl
  obtain ⟨u, hrun, hmicros, hcore, hdone, hframe⟩ := hstart.run (j := 130) (rest := [.engine]) (by omega) rfl
  have hfold := fold_of_coreDone (hdone.trans (congrArg (· + 130) hzero))
  have husched : u.sched = [.engine] := by rw [hframe]
  obtain ⟨hlast, hmicro⟩ := run_one_engine husched (by rw [hcore.enabled_eq, hfold]; rfl) (hcore.consumeTurn.fold hfold)
  refine ⟨_, (run_add hrun 1).trans hlast, ?_, rfl, rfl, rfl, ?_⟩
  · rw [show 131 = 130 + 1 from rfl, microSteps_add hrun, hmicros, hmicro]
  · rw [hframe]
    exact ⟨rfl, rfl, rfl, rfl, rfl, rfl, rfl, rfl, rfl⟩

end Sys2Proof.Machine
end

section
/-! PROOFS. A computation over a message, step by step (R165, R182, R195, R224): what the registers hold, how many
micro-operations have been performed, and how the commands are answered. -/

namespace Sys2Proof.Machine

/-! ### The position in the padded message -/

/-- R165, R182: on a full block the core's progress is that of its compression. -/
theorem coreProgress_iff {m : List Byte} {k : Nat} {s : State} (hn : s.n.val = 64) : CoreProgress m k s ↔
    CompressionProgress (hashAfter m k) (block m k) s := by
  unfold CompressionProgress
  cases hc : s.cp <;> simp only [CoreProgress, hc, CoreCells, ScheduleWord, RoundWords, hn, true_and]

theorem coreProgress_of_cidle {m : List Byte} {k : Nat} {s : State} (hc : s.cp = .cidle) : CoreProgress m k s := by
  simp only [CoreProgress, hc]

/-- `PadProgress` on the registers it speaks of. -/
def PadPlace (m : List Byte) (k : Nat) (pp : PadPhase) (cp : CorePhase) (n q cnt : Nat) : Prop :=
  match pp with
  | .idle => False
  | .recv => cnt = 64 * k + n ∧ cnt < m.length
  | .pad80 => m.length = 64 * k + n
  | .pad00 => m.length + 1 ≤ 64 * k + n ∧ 64 * k + n < m.length + 1 + zeroCount m.length
  | .padlen => 64 * k + n = m.length + 1 + zeroCount m.length + q ∧ n = 56 + q
  | .done => k = blockCount m.length ∧ n = 0 ∧ cp = .cidle
  | .fault => False

theorem padProgress_iff {m : List Byte} {k : Nat} {s : State} :
    PadProgress m k s ↔ PadPlace m k s.pp s.cp s.n.val s.q.val s.cnt.toNat := by
  cases hp : s.pp <;> simp only [PadProgress, hp, PadPlace]

theorem PadPlace.of_busy {m : List Byte} {k n q cnt : Nat} {pp : PadPhase} {cp : CorePhase}
    (h : PadPlace m k pp cp n q cnt) (hbusy : pp.busy = true) (cp' : CorePhase) : PadPlace m k pp cp' n q cnt := by
  cases pp with
  | recv | pad80 | pad00 | padlen => exact h
  | idle | done | fault => exact nomatch hbusy

theorem Computing.padPlace {m : List Byte} {k : Nat} {s : State} (h : Computing m k s) :
    PadPlace m k s.pp s.cp s.n.val s.q.val s.cnt.toNat :=
  padProgress_iff.mp h.place

theorem Computing.busy_of_full {m : List Byte} {k : Nat} {s : State} (h : Computing m k s) (hn : s.n.val = 64) :
    s.pp.busy = true := by
  have hplace := h.padPlace
  cases hp : s.pp <;> rw [hp] at hplace
  case recv | pad80 | pad00 | padlen => rfl
  case done => exact nomatch hn.symm.trans hplace.2.1
  case idle | fault => exact hplace.elim

/-- A full block of the padded message is being compressed into the hash state of the blocks before it. -/
theorem Computing.inCore {m : List Byte} {k : Nat} {s : State} (h : Computing m k s) (hn : s.n.val = 64) :
    InCore (hashAfter m k) (block m k) s where
  busy := h.busy_of_full hn
  full := hn
  words := hashWords_of_someWords h.hash
  buffer := fun a ha => by rw [h.buffer a (by omega), block_getD m k ha]
  progress := (coreProgress_iff hn).mp h.core

/-- How many micro-operations the computation has performed (R224): the bytes of padding appended, 131 for each block
folded, and those of the block in the core. -/
def microOpsDone (m : List Byte) (k : Nat) (s : State) : Nat :=
  (64 * k + s.n.val - m.length) + 131 * k + coreDone s.cp s.t

/-- A step goes on with a computation: at most one block more is folded, and `d` micro-operations are performed. -/
def GoesOn (m : List Byte) (k d : Nat) (s t : State) : Prop :=
  ∃ k', k ≤ k' ∧ k' ≤ k + 1 ∧ Computing m k' t ∧ microOpsDone m k' t = microOpsDone m k s + d

/-- The core goes on with its block. -/
theorem Computing.of_coreStep {m : List Byte} {k : Nat} {s t : State} (h : Computing m k s) (hn : s.n.val = 64)
    (hstep : CoreStep s t) (hprogress : CompressionProgress (hashAfter m k) (block m k) t) : GoesOn m k 1 s t := by
  obtain ⟨hframe, hdone⟩ := hstep
  rw [hframe] at hprogress hdone ⊢
  refine ⟨k, Nat.le_refl k, Nat.le_succ k, ⟨h.len, ?place, h.buffer, h.hash, ?core⟩, ?done⟩
  case place => exact padProgress_iff.mpr (h.padPlace.of_busy (h.busy_of_full hn) t.cp)
  case core => exact (coreProgress_iff (s := { s with v := t.v, w := t.w, cp := t.cp, t := t.t }) hn).mpr hprogress
  case done =>
    rw [microOpsDone, microOpsDone, hdone]
    rfl

/-- R194: the add-back folds the block, and after the last one the computation is done. -/
theorem Computing.fold {m : List Byte} {k : Nat} {s t : State} (h : Computing m k s) (hn : s.n.val = 64)
    (hc : s.cp = .fold) (ht : exec .fold s = .next t) : GoesOn m k 1 s t := by
  have hplace := h.padPlace
  rw [(h.inCore hn).fold hc] at ht
  cases ht
  refine ⟨k + 1, Nat.le_succ k, Nat.le_refl _, ⟨h.len, padProgress_iff.mpr ?place,
    fun a ha => absurd ha (Nat.not_lt_zero a), rfl, trivial⟩, ?done⟩
  case place =>
    have hblocks := pad_length_blocks m
    show PadPlace m (k + 1) (if s.pp = .padlen ∧ s.q.val = 8 then .done else s.pp) .cidle 0 s.q.val s.cnt.toNat
    rw [hn] at hplace
    cases hp : s.pp <;> rw [hp] at hplace
    case recv | pad80 | pad00 =>
      rw [if_neg (by simp)]
      simp only [PadPlace] at hplace ⊢
      omega
    case padlen =>
      obtain ⟨hbytes, hq⟩ := hplace
      have hq8 : s.q.val = 8 := by omega
      rw [if_pos ⟨rfl, hq8⟩]
      exact ⟨by omega, rfl, rfl⟩
    case done => exact nomatch hplace.2.1
    case idle | fault => exact hplace.elim
  case done =>
    show 64 * (k + 1) + 0 - m.length + 131 * (k + 1) + 0 = 64 * k + s.n.val - m.length + 131 * k + coreDone s.cp s.t + 1
    rw [hn, hc, coreDone]
    omega

/-! ### The padding controller's micro-operations -/

/-- A byte of the padded message appended while the core is idle: the buffer and the number of micro-operations follow. -/
theorem Computing.append {m : List Byte} {k : Nat} {s t : State} (h : Computing m k s) (hc : s.cp = .cidle)
    (hn : s.n.val < 64) {x : Byte} {pp : PadPhase} {q : Fin 9} {cnt : Word}
    (ht : t = { storeByte x s with pp := pp, q := q, cnt := cnt })
    (hx : (pad m).getD (64 * k + s.n.val) 0 = x)
    (hplace : PadPlace m k pp .cidle (s.n.val + 1) q.val cnt.toNat) : Computing m k t := by
  subst ht
  have hn' := storeByte_n_val x hn
  refine ⟨h.len, padProgress_iff.mpr ?place, fun a ha => ?buffer, h.hash, ?core⟩
  case place =>
    show PadPlace m k pp s.cp (storeByte x s).n.val q.val cnt.toNat
    rw [hc, hn']
    exact hplace
  case buffer =>
    have ha : a < s.n.val + 1 := hn' ▸ ha
    show (s.b.write s.n.val x).read a = _
    rw [Memory.read_write]
    split
    · next heq => rw [heq, hx]
    · exact h.buffer a (by omega)
  case core => exact coreProgress_of_cidle hc

/-- A padding micro-operation appends the next byte of the padding. -/
theorem Computing.append_goesOn {m : List Byte} {k : Nat} {s t : State} (h : Computing m k s) (hc : s.cp = .cidle)
    (hn : s.n.val < 64) {x : Byte} {pp : PadPhase} {q : Fin 9} (ht : t = { storeByte x s with pp := pp, q := q })
    (hx : (pad m).getD (64 * k + s.n.val) 0 = x)
    (hplace : PadPlace m k pp .cidle (s.n.val + 1) q.val s.cnt.toNat) (hle : m.length ≤ 64 * k + s.n.val) :
    GoesOn m k 1 s t := by
  refine ⟨k, Nat.le_refl k, Nat.le_succ k, h.append hc hn ht hx hplace, ?_⟩
  have hcp : t.cp = .cidle := by rw [ht]; exact hc
  have htn : t.n.val = s.n.val + 1 := by rw [ht]; exact storeByte_n_val x hn
  rw [microOpsDone, microOpsDone, htn, hcp, hc, coreDone, coreDone]
  omega

/-- R161: the 0x80 byte follows the message. -/
theorem Computing.p80 {m : List Byte} {k : Nat} {s t : State} (h : Computing m k s) (hc : s.cp = .cidle)
    (hn : s.n.val < 64) (hp : s.pp = .pad80) (ht : exec .p80 s = .next t) : GoesOn m k 1 s t := by
  have hplace := h.padPlace
  rw [hp] at hplace
  simp only [PadPlace] at hplace
  rw [p80Result s hn] at ht
  refine h.append_goesOn hc hn (Host.Outcome.next.inj ht).symm (by rw [← hplace]; exact pad_getD_80 m) ?place (by omega)
  have hzero := zeroCount_spec m.length
  split
  · next h56 => simp only [PadPlace, zeroCount, Fin.val_zero] at hzero ⊢; omega
  · next h56 => simp only [PadPlace, zeroCount] at hzero ⊢; omega

/-- R162: then the zero bytes. -/
theorem Computing.p00 {m : List Byte} {k : Nat} {s t : State} (h : Computing m k s) (hc : s.cp = .cidle)
    (hn : s.n.val < 64) (hp : s.pp = .pad00) (ht : exec .p00 s = .next t) : GoesOn m k 1 s t := by
  have hplace := h.padPlace
  rw [hp] at hplace
  obtain ⟨hlow, hhigh⟩ := hplace
  rw [p00Result s hn, hp] at ht
  refine h.append_goesOn hc hn (Host.Outcome.next.inj ht).symm (pad_getD_00 m hlow hhigh) ?place (by omega)
  split
  · next h56 => simp only [PadPlace, zeroCount, Fin.val_zero] at hhigh ⊢; omega
  · next h56 => simp only [PadPlace, zeroCount] at hhigh ⊢; omega

/-- R163: then the eight bytes of the bit length. -/
theorem Computing.plen {m : List Byte} {k : Nat} {s t : State} (h : Computing m k s) (hc : s.cp = .cidle)
    (hn : s.n.val < 64) (hp : s.pp = .padlen) (ht : exec .plen s = .next t) : GoesOn m k 1 s t := by
  have hplace := h.padPlace
  rw [hp] at hplace
  obtain ⟨hbytes, hq⟩ := hplace
  have hq8 : s.q.val < 8 := by omega
  rw [exec_plen_of_missing hq8, appendByte_of_room _ _ hn] at ht
  refine h.append_goesOn hc hn (pp := s.pp) (q := s.q + 1) (Host.Outcome.next.inj ht).symm ?byte ?place (by omega)
  case byte => rw [hbytes, pad_getD_length m hq8, bitLen_eq h.len]
  case place =>
    rw [hp, q_succ_val hq8]
    exact ⟨by omega, by omega⟩

/-- R224: every micro-operation of a computation goes on with it. -/
theorem Computing.exec_microOp {m : List Byte} {k : Nat} {s t : State} {i : Instr} (h : Computing m k s)
    (henabled : enabled s = some i) (ht : exec i s = .next t) : GoesOn m k 1 s t := by
  by_cases hn : s.n.val = 64
  · have hcore := h.inCore hn
    obtain rfl := Option.some.inj (henabled.symm.trans hcore.enabled_eq)
    by_cases hc : s.cp = .fold
    · rw [hc] at ht
      exact h.fold hn hc ht
    · obtain ⟨u, hu, hstep, hprogress⟩ := hcore.exec_coreOp hc
      obtain rfl := Host.Outcome.next.inj (ht.symm.trans hu)
      exact h.of_coreStep hn hstep hprogress
  · have hlt : s.n.val < 64 := by omega
    rcases enabled_some henabled with ⟨-, -, hfull, -⟩ | ⟨-, -, hfull, -⟩ | ⟨-, -, hfull, -⟩ | ⟨-, -, hfull, -⟩ |
      ⟨-, -, hfull, -⟩ | ⟨-, -, hfull⟩ | ⟨rfl, hc, -, hp⟩ | ⟨rfl, hc, -, hp⟩ | ⟨rfl, hc, -, hp⟩
    iterate 6 exact absurd hfull hn
    · exact h.p80 hc hlt hp ht
    · exact h.p00 hc hlt hp ht
    · exact h.plen hc hlt hp ht

/-! ### The commands -/

/-- The missing bytes come out only in RECV, and there is one. -/
theorem missing_of_recv {m : List Byte} {s : State} (hp : s.pp = .recv) : missing m s = m.drop s.cnt.toNat := by
  simp only [missing, hp]

theorem missing_of_not_recv {m : List Byte} {s : State} (hp : s.pp ≠ .recv) : missing m s = [] := by
  cases hpp : s.pp <;> simp only [missing, hpp]
  case recv => exact absurd hpp hp

theorem Computing.missing_ne_nil {m : List Byte} {k : Nat} {s : State} (h : Computing m k s) (hp : s.pp = .recv) :
    missing m s ≠ [] := by
  have hplace := h.padPlace
  rw [hp] at hplace
  rw [missing_of_recv hp, Ne, List.drop_eq_nil_iff]
  exact Nat.not_le_of_lt hplace.2

/-- The missing bytes depend on the engine only. -/
theorem SameEngine.missing_eq {m : List Byte} {s t : State} (h : SameEngine s t) : missing m t = missing m s := by
  rw [missing, missing, h.pp, h.cnt]

/-- A micro-operation takes no message byte. -/
theorem missing_of_microOp {m : List Byte} {s t : State} {i : Instr} (henabled : enabled s = some i)
    (ht : exec i s = .next t) : missing m t = missing m s := by
  obtain ⟨hcnt, hpp | hpp⟩ := exec_microOp_phase henabled ht
  · rw [missing, missing, hpp, hcnt]
  · obtain ⟨-, hne, hne'⟩ := padTransitions_legal _ hpp
    rw [missing_of_not_recv hne, missing_of_not_recv hne']

/-- The number of micro-operations performed depends on the engine only. -/
theorem SameEngine.microOpsDone_eq {m : List Byte} {k : Nat} {s t : State} (h : SameEngine s t) :
    microOpsDone m k t = microOpsDone m k s := by
  rw [microOpsDone, microOpsDone, h.n, h.cp, h.t]

/-- A step that keeps the engine goes on with the computation. -/
theorem Computing.of_sameEngine {m : List Byte} {k : Nat} {s t : State} (h : Computing m k s) (hsame : SameEngine s t) :
    GoesOn m k 0 s t :=
  ⟨k, Nat.le_refl k, Nat.le_succ k, hsame.computing h, hsame.microOpsDone_eq⟩

theorem GoesOn.of_sameEngine {m : List Byte} {k d : Nat} {s t u : State} (h : GoesOn m k d s t)
    (hsame : SameEngine t u) : GoesOn m k d s u := by
  obtain ⟨k', hle, hle', hk', hdone⟩ := h
  exact ⟨k', hle, hle', hsame.computing hk', hsame.microOpsDone_eq.trans hdone⟩

/-- R213, R165: the next byte of the message is the one missing; after the last one the padding starts. -/
theorem Computing.push {m : List Byte} {k : Nat} {s : State} (h : Computing m k s) (hp : s.pp = .recv)
    (hc : s.cp = .cidle) (hn : s.n.val < 64) {x : Byte} {more : List Byte} (hx : missing m s = x :: more) :
    GoesOn m k 0 s (countByte (storeByte x s)) ∧ missing m (countByte (storeByte x s)) = more := by
  have hplace := h.padPlace
  rw [hp] at hplace
  obtain ⟨hcnt, hlt⟩ := hplace
  rw [missing_of_recv hp] at hx
  have hlen := h.len
  have hcnt' : (s.cnt + 1).toNat = s.cnt.toNat + 1 := toNat_succ_of_lt (y := s.len) (by omega)
  rw [List.drop_eq_getElem_cons hlt] at hx
  obtain ⟨rfl, rfl⟩ := List.cons.inj hx
  have hbyte : (pad m).getD (64 * k + s.n.val) 0 = m[s.cnt.toNat] := by
    rw [← hcnt, pad_getD_message m hlt, List.getD_eq_getElem _ _ hlt]
  have hpp : (countByte (storeByte m[s.cnt.toNat] s)).pp = if s.cnt + 1 = s.len then .pad80 else .recv := by
    rw [← hp]
    rfl
  refine ⟨⟨k, Nat.le_refl k, Nat.le_succ k, h.append hc hn (pp := if s.cnt + 1 = s.len then .pad80 else .recv)
    (q := s.q) (cnt := s.cnt + 1) (by rw [← hpp]; rfl) hbyte ?place, ?done⟩, ?missing⟩
  case place =>
    rw [hcnt']
    split
    · next hlast =>
      have := hcnt'.symm.trans (congrArg BitVec.toNat hlast)
      simp only [PadPlace]
      omega
    · next hmore =>
      have hne : s.cnt.toNat + 1 ≠ s.len.toNat := fun he => hmore (BitVec.eq_of_toNat_eq (hcnt'.trans he))
      exact ⟨by omega, by omega⟩
  case done =>
    show 64 * k + (storeByte m[s.cnt.toNat] s).n.val - m.length + 131 * k + coreDone s.cp s.t =
      64 * k + s.n.val - m.length + 131 * k + coreDone s.cp s.t
    rw [storeByte_n_val _ hn]
    omega
  case missing =>
    by_cases hlast : s.cnt + 1 = s.len
    · rw [missing_of_not_recv (by rw [hpp, if_pos hlast]; nofun), List.drop_eq_nil_of_le]
      have := hcnt'.symm.trans (congrArg BitVec.toNat hlast)
      omega
    · rw [missing_of_recv (by rw [hpp, if_neg hlast])]
      show m.drop (s.cnt + 1).toNat = _
      rw [hcnt']

/-- R224: the hash state in DONE is the message's. -/
theorem Computing.hash_of_done {m : List Byte} {k : Nat} {s : State} (h : Computing m k s) (hp : s.pp = .done) :
    s.h = someWords (hashAfter m (blockCount m.length)) := by
  have hplace := h.padPlace
  rw [hp] at hplace
  rw [h.hash, hplace.1]

/-- How a command's turn goes in a well-formed computation: it is held, or it is taken and answered as R224 says, and
the computation goes on. -/
def AnsweredOrHeld (m : List Byte) (k : Nat) (cw : CommandWord) (s t : State) : Prop :=
  t = s ∨ ∃ r, Taken s t r ∧ Answered m cw r ∧ GoesOn m k 0 s t ∧ continues (missing m t) t.host = true

/-- A command that is answered and changes nothing. -/
theorem Computing.respond {m : List Byte} {k : Nat} {s : State} (h : Computing m k s) {cw : CommandWord} {d : Word}
    (hd : Answered m cw ⟨false, d⟩) (hrest : continues (missing m s) s.host = true) :
    AnsweredOrHeld m k cw s (respond false d s) :=
  .inr ⟨_, ⟨rfl, rfl, rfl, rfl⟩, hd, h.of_sameEngine (respond_sameEngine _ _ _), hrest⟩

/-- R211, R224: a digest read in a computation is held, or answered in DONE. -/
theorem Computing.read {m : List Byte} {k : Nat} {s t : State} {cw : CommandWord} {d : State → Word}
    (h : Computing m k s) (hdone : s.pp = .done → Answered m cw ⟨false, d s⟩) (hmissing : missing m s = [])
    (hrest : continues [] s.host = true)
    (ht : processCommand .read (fun s => .next (Machine.respond false (d s) s)) s = .next t) : AnsweredOrHeld m k cw s t := by
  have hplace := h.padPlace
  cases hp : s.pp <;> rw [hp] at hplace
  case idle | fault => exact hplace.elim
  case recv => exact absurd hmissing (h.missing_ne_nil hp)
  case pad80 | pad00 | padlen =>
    rw [processCommand_hold _ (disposition_read_hold s.cp s.n (by simp [hp]))] at ht
    cases ht
    exact .inl rfl
  case done =>
    rw [processCommand_accept _ (disposition_read_accept s.cp s.n hp)] at ht
    cases ht
    exact h.respond (hdone hp) (by rw [hmissing]; exact hrest)

theorem Computing.h_getElem {m : List Byte} {k : Nat} {s : State} (h : Computing m k s) (hp : s.pp = .done)
    (i : Fin 8) : s.h[i] = some (hashAfter m (blockCount m.length))[i] := by
  rw [h.hash_of_done hp]
  exact someWords_getElem _ _ i.isLt

/-- R149, R214: a digest byte read in DONE is `compute`'s. -/
theorem Computing.digestByte_eq {m : List Byte} {k : Nat} {s : State} (h : Computing m k s) (hp : s.pp = .done)
    (j : BitVec 5) : digestByte s j = (compute m).getD j.toNat 0 := by
  have hi : j.toNat / 4 < 8 := Nat.div_lt_of_lt_mul j.isLt
  rw [compute, ser_getD (i := ⟨j.toNat / 4, hi⟩) _ rfl]
  exact digestByte_of_some (i := ⟨j.toNat / 4, hi⟩) rfl (h.h_getElem hp _)

/-- R221, R224: every command of a well-formed computation is held or answered as R224 says. -/
theorem Computing.exec_command {m : List Byte} {k : Nat} {s t : State} {cw : CommandWord} {i : Instr}
    (h : Computing m k s) (hdecode : decodeCommand cw = .instr i)
    (hcont : continues (missing m s) (cw :: s.host) = true) (ht : exec i s = .next t) : AnsweredOrHeld m k cw s t := by
  have hanswered {d : Word} : Answered m cw ⟨false, d⟩ ↔ match Decoded.instr i with
      | .instr .rds => True
      | .instr (.rdb j) => d = ((compute m).getD j.toNat 0).setWidth 32
      | .instr (.rdw i) => d = (hashAfter m (blockCount m.length))[i.toNat]'(i.isLt)
      | _ => d = 0 := by
    rw [← hdecode]
    exact and_iff_right rfl
  cases i with
  | nop =>
    rw [exec_nop, processCommand_always] at ht
    cases ht
    exact h.respond (hanswered.mpr rfl) (by simpa [continues, hdecode] using hcont)
  | rds =>
    rw [exec_rds, processCommand_always] at ht
    cases ht
    exact h.respond (hanswered.mpr trivial) (by simpa [continues, hdecode] using hcont)
  | pushb x =>
    cases hmissing : missing m s with
    | nil => simp [continues, hdecode, hmissing] at hcont
    | cons y more =>
      obtain ⟨rfl, hrest⟩ : x = y ∧ continues more s.host = true := by
        simpa [continues, hdecode, hmissing] using hcont
      have hp : s.pp = .recv := by
        by_contra hp
        exact nomatch (missing_of_not_recv hp).symm.trans hmissing
      by_cases hroom : s.cp = .cidle ∧ s.n.val < 64
      · obtain ⟨hc, hn⟩ := hroom
        obtain ⟨hgoes, hmore⟩ := h.push hp hc hn hmissing
        rw [exec_pushb, processCommand_accept _ (disposition_push_accept hp hc hn), appendByte_of_room x _ hn] at ht
        cases ht
        exact .inr ⟨_, ⟨rfl, rfl, rfl, rfl⟩, hanswered.mpr rfl,
          hgoes.of_sameEngine (respond_sameEngine _ _ _), (congrArg (continues · s.host) hmore).trans hrest⟩
      · have hwait := (Classical.not_and_iff_not_or_not.mp hroom).imp_right fun hn : ¬ s.n.val < 64 =>
          show s.n.val = 64 by omega
        rw [exec_pushb, processCommand_hold _ (disposition_push_hold hp hwait)] at ht
        cases ht
        exact .inl rfl
  | rdb j =>
    obtain ⟨hmissing, hrest⟩ : missing m s = [] ∧ continues [] s.host = true := by
      simpa [continues, hdecode] using hcont
    refine h.read (d := fun s => (digestByte s j).setWidth 32) (fun hp => hanswered.mpr ?_) hmissing hrest ht
    rw [h.digestByte_eq hp]
  | rdw j =>
    obtain ⟨hmissing, hrest⟩ : missing m s = [] ∧ continues [] s.host = true := by
      simpa [continues, hdecode] using hcont
    refine h.read (d := fun s => readH s ⟨j.toNat, j.isLt⟩) (fun hp => hanswered.mpr ?_) hmissing hrest ht
    exact readH_of_some (h.h_getElem hp ⟨j.toNat, j.isLt⟩)
  | start | abort | ldw | exp | initv | rnd | fold | disp | p80 | p00 | plen => simp [continues, hdecode] at hcont

/-- R224 (1): a step answers the first of the commands not yet taken, or takes none. -/
def AnswersNext (m : List Byte) (s t : State) : Prop :=
  (pending t = pending s ∧ t.rsp = s.rsp) ∨
    ∃ cw r, pending s = cw :: pending t ∧ t.rsp = s.rsp ++ [r] ∧ Answered m cw r

theorem pending_of_port {s : State} {cw : CommandWord} (hport : s.port = some cw) : pending s = cw :: s.host := by
  rw [pending, hport]
  rfl

theorem pending_of_free {s : State} (hport : s.port = none) : pending s = s.host := by
  rw [pending, hport]
  rfl

/-- R224: a step without a reset goes on with the computation, keeps the commands not yet taken those of a well-formed
one, and answers in order. -/
theorem Computing.step {m : List Byte} {k : Nat} {s t : State} (h : Computing m k s)
    (hcont : continues (missing m s) (pending s) = true) (hturn : nextTurn s ≠ .rst) (hstep : step s = .next t) :
    GoesOn m k (if isMicroStep s then 1 else 0) s t ∧ continues (missing m t) (pending t) = true ∧ AnswersNext m s t := by
  rcases step_cases s with ⟨i, henabled, hengine, hrun⟩ | ⟨cw, i, hport, hdecode, hcommand, hrun⟩ |
    ⟨cw, why, hport, hdecode, -, -⟩ | ⟨hpresent, hrun⟩ | ⟨hrst, -⟩ | ⟨hidle, hrun⟩
  · have ht := hrun.symm.trans hstep
    have hgoes : GoesOn m k 1 s t := ((consumeTurn_sameEngine s).computing h).exec_microOp henabled ht
    obtain ⟨hrsp, hport, hhost, -⟩ := exec_microOp_outside (enabled_isMicroOp henabled) ht
    have hpending : pending t = pending s := by rw [pending, hport, hhost]; rfl
    rw [isMicroStep_of_enabled hengine henabled, if_pos rfl, hpending]
    exact ⟨hgoes, (missing_of_microOp (s := consumeTurn s) henabled ht).symm ▸ hcont, .inl ⟨hpending, hrsp⟩⟩
  · have ht := hrun.symm.trans hstep
    have hanswer : AnsweredOrHeld m k cw (consumeTurn s) t := ((consumeTurn_sameEngine s).computing h).exec_command
      hdecode (pending_of_port hport ▸ hcont) ht
    rw [isMicroStep_eq_false (.inl (by rw [hcommand]; nofun))]
    rcases hanswer with rfl | ⟨r, htaken, hr, hgoes, hrest⟩
    · exact ⟨h.of_sameEngine (consumeTurn_sameEngine s), hcont, .inl ⟨rfl, rfl⟩⟩
    · have hpending : pending t = s.host := (pending_of_free htaken.port).trans htaken.host
      exact ⟨hgoes, by rw [pending_of_free htaken.port]; exact hrest,
        .inr ⟨cw, r, by rw [hpending, pending_of_port hport], htaken.rsp, hr⟩⟩
  · rw [pending_of_port hport] at hcont
    simp [continues, hdecode] at hcont
  · rw [isMicroStep_eq_false (.inl (by rw [hpresent]; nofun))]
    obtain rfl := Host.Outcome.next.inj (hrun.symm.trans hstep)
    have hsame := (consumeTurn_sameEngine s).trans (presentNext_sameEngine _)
    rw [presentNext_pending, hsame.missing_eq]
    exact ⟨h.of_sameEngine hsame, hcont, .inl ⟨presentNext_pending _, (presentNext_outside _).1⟩⟩
  · exact absurd hrst hturn
  · have hnone : nextTurn s ≠ .engine ∨ enabled s = none := hidle.symm.imp (fun ⟨hcommand, _⟩ => by rw [hcommand]; nofun) (·.2)
    rw [isMicroStep_eq_false hnone]
    obtain rfl := Host.Outcome.next.inj (hrun.symm.trans hstep)
    exact ⟨h.of_sameEngine (consumeTurn_sameEngine s), hcont, .inl ⟨rfl, rfl⟩⟩

/-- Settles O58: what a step of a computation does, without its count and its answers. -/
theorem everyStepComputesTheMessage : Obligations.EveryStepComputesTheMessage := by
  intro m k s t _ h hcont hturn hstep
  obtain ⟨⟨k', hle, hle', hk', -⟩, hcont', -⟩ := h.step hcont hturn hstep
  exact ⟨⟨k', hle, hle', hk'⟩, hcont'⟩

end Sys2Proof.Machine
end

section
/-! PROOFS. The engine left alone is quiescent within 334 micro-operations (R219, R285). -/

namespace Sys2Proof.Machine

/-- The micro-operations still to come in a block with `n` bytes while the core is idle, with no help of the host: the
padding up to a full block, its compression, and one block more if the length field does not fit. -/
def padWork (pp : PadPhase) (n : Nat) : Nat :=
  match pp with
  | .pad80 => if n < 56 then (64 - n) + 131 else (64 - n) + 131 + (64 + 131)
  | .pad00 => if n < 56 then (64 - n) + 131 else (64 - n) + 131 + (64 + 131)
  | .padlen => (64 - n) + 131
  | .idle => 0
  | .recv => 0
  | .done => 0
  | .fault => 0

/-- The micro-operations until no more is enabled: those of the block in the core, and those of the padding after it. -/
def engineWork (s : State) : Nat :=
  if s.n.val = 64 then (131 - coreDone s.cp s.t) + if s.pp = .padlen then 0 else padWork s.pp 0
  else padWork s.pp s.n.val

theorem padWork_zero_le (pp : PadPhase) : padWork pp 0 ≤ 64 + 131 := by
  cases pp <;> decide

theorem padWork_le (pp : PadPhase) (n : Nat) : padWork pp n ≤ 334 := by
  cases pp <;> simp only [padWork]
  case pad80 | pad00 => split <;> omega
  all_goals omega

/-- R285: the longest way is from a 0x80 byte at index 56, which leaves the length field to a second block. -/
theorem engineWork_le (s : State) : engineWork s ≤ 334 := by
  have hzero := padWork_zero_le s.pp
  unfold engineWork
  split
  · split <;> omega
  · exact padWork_le s.pp s.n.val

/-- The work in a block while the core is idle, with `n` bytes in it. -/
theorem engineWork_of_cidle {s : State} {n : Nat} (hc : s.cp = .cidle) (hn : s.n.val = n) :
    engineWork s = if n = 64 then 131 + (if s.pp = .padlen then 0 else padWork s.pp 0) else padWork s.pp n := by
  rw [engineWork, hn, hc]
  rfl

/-- A byte of the zero run, or the 0x80 before it, is one of the work's. -/
theorem zeroRun_work {n : Nat} (hn : n < 64) {pp : PadPhase} (hpp : pp = if n + 1 = 56 then .padlen else .pad00) :
    (if n + 1 = 64 then 131 + (if pp = .padlen then 0 else padWork pp 0) else padWork pp (n + 1)) + 1 =
      padWork .pad80 n := by
  subst hpp
  by_cases h56 : n + 1 = 56
  · obtain rfl : n = 55 := by omega
    rfl
  · rw [if_neg h56]
    simp only [padWork]
    split_ifs <;> simp_all <;> omega

/-- Each micro-operation is one of the work's. -/
theorem engineWork_exec {s t : State} {i : Instr} (h : Inv s) (henabled : enabled s = some i)
    (ht : exec i s = .next t) : engineWork t + 1 = engineWork s := by
  by_cases hn : s.n.val = 64
  · obtain rfl : coreOp s.cp = i := by simpa [h.rule52.enabled_eq, hn] using henabled
    by_cases hc : s.cp = .fold
    · rw [hc, coreOp, exec_fold] at ht
      obtain ⟨htc, htn, htp⟩ : t.cp = .cidle ∧ t.n.val = 0 ∧
          t.pp = if s.pp = .padlen ∧ s.q.val = 8 then .done else s.pp := by
        cases ht
        exact ⟨rfl, rfl, rfl⟩
      rw [engineWork_of_cidle htc htn, if_neg (by decide), engineWork, if_pos hn, hc, coreDone, htp]
      by_cases hp : s.pp = .padlen
      · have hq := h.rule52.item8 hp
        rw [if_pos ⟨hp, by omega⟩, if_pos hp]
        rfl
      · rw [if_neg fun hlast => hp hlast.1, if_neg hp]
        exact Nat.add_comm _ 1
    · have hstep := exec_coreOp_step hc ht
      have hdone := hstep.done
      have hle := coreDone_le t.cp t.t
      have htn : t.n.val = 64 := by rw [hstep.frame]; exact hn
      have hpp : t.pp = s.pp := by rw [hstep.frame]
      rw [engineWork, engineWork, if_pos hn, if_pos htn, hpp]
      omega
  · have hlt : s.n.val < 64 := by omega
    have hsucc : (s.n + 1).val = s.n.val + 1 := storeByte_n_val 0 hlt
    rcases enabled_some henabled with ⟨-, -, hfull, -⟩ | ⟨-, -, hfull, -⟩ | ⟨-, -, hfull, -⟩ | ⟨-, -, hfull, -⟩ |
      ⟨-, -, hfull, -⟩ | ⟨-, -, hfull⟩ | ⟨rfl, hc, -, hp⟩ | ⟨rfl, hc, -, hp⟩ | ⟨rfl, hc, -, hp⟩
    iterate 6 exact absurd hfull hn
    · rw [p80Result s hlt] at ht
      obtain ⟨htc, htn, htp⟩ : t.cp = .cidle ∧ t.n.val = s.n.val + 1 ∧
          t.pp = if s.n.val + 1 = 56 then .padlen else .pad00 := by
        cases ht
        exact ⟨hc, hsucc, rfl⟩
      rw [engineWork_of_cidle htc htn, engineWork_of_cidle hc rfl, if_neg hn, hp]
      exact zeroRun_work hlt htp
    · rw [p00Result s hlt, hp] at ht
      obtain ⟨htc, htn, htp⟩ : t.cp = .cidle ∧ t.n.val = s.n.val + 1 ∧
          t.pp = if s.n.val + 1 = 56 then .padlen else .pad00 := by
        cases ht
        exact ⟨hc, hsucc, rfl⟩
      rw [engineWork_of_cidle htc htn, engineWork_of_cidle hc rfl, if_neg hn, hp]
      exact zeroRun_work hlt htp
    · have hq := h.rule52.item8 hp
      rw [plenResult s hlt (by omega)] at ht
      obtain ⟨htc, htn, htp⟩ : t.cp = .cidle ∧ t.n.val = s.n.val + 1 ∧ t.pp = .padlen := by
        cases ht
        exact ⟨hc, hsucc, hp⟩
      rw [engineWork_of_cidle htc htn, engineWork_of_cidle hc rfl, if_neg hn, hp, htp]
      simp only [padWork]
      split_ifs <;> omega

theorem engineWork_eq_zero {s : State} (h : Inv s) (hnone : enabled s = none) : engineWork s = 0 := by
  rw [h.rule52.enabled_eq] at hnone
  rw [engineWork]
  split at hnone
  · cases hnone
  · next hn =>
    rw [if_neg hn]
    cases hp : s.pp <;> rw [hp] at hnone
    case idle | recv | done | fault => rfl
    case pad80 | pad00 | padlen => cases hnone

/-- Turns of the engine alone, as many as the work to do, lead to a state in which no micro-operation is enabled. -/
theorem run_engine_quiescent {j : Nat} {s : State} (h : Inv s) (hj : engineWork s ≤ j)
    (hsched : s.sched = List.replicate j .engine) : ∃ t, run j s = .next t ∧ quiescent t = true := by
  induction j generalizing s with
  | zero =>
    refine ⟨s, rfl, ?_⟩
    cases henabled : enabled s with
    | none => rw [quiescent, henabled]; rfl
    | some i =>
      obtain ⟨t, ht⟩ := exec_exists_next (h.inRange henabled)
      have := engineWork_exec h henabled ht
      omega
  | succ j ih =>
    have hturn := nextTurn_of_cons hsched
    have hinv := (consumeTurn_sameEngine s).inv h
    have hrest : (consumeTurn s).sched = List.replicate j .engine := by rw [consumeTurn_of_cons hsched]
    cases henabled : enabled s with
    | none =>
      have hzero : engineWork (consumeTurn s) = 0 := engineWork_eq_zero hinv henabled
      obtain ⟨t, hrun, hquiet⟩ := ih hinv (by omega) hrest
      exact ⟨t, (run_succ_of_next (step_idle (.inl ⟨hturn, henabled⟩))).trans hrun, hquiet⟩
    | some i =>
      obtain ⟨u, hu⟩ := exec_exists_next (hinv.inRange henabled)
      have hwork : engineWork u + 1 = engineWork (consumeTurn s) := engineWork_exec hinv henabled hu
      have hsame : engineWork (consumeTurn s) = engineWork s := rfl
      have husched := (exec_microOp_outside (enabled_isMicroOp henabled) hu).2.2.2
      obtain ⟨t, hrun, hquiet⟩ := ih (inv_microOp hinv henabled hu) (by omega) (husched.trans hrest)
      exact ⟨t, (run_succ_of_next ((step_engine hturn henabled).trans hu)).trans hrun, hquiet⟩

/-- Settles O47: the work of the engine is at most 334 micro-operations. -/
theorem engineReachesQuiescence : Obligations.EngineReachesQuiescence := by
  intro s h
  have hinv : Inv { s with sched := List.replicate 334 .engine } :=
    SameEngine.inv (s := s) (by constructor <;> rfl) h
  exact run_engine_quiescent hinv (engineWork_le _) rfl

end Sys2Proof.Machine
end

section
/-! PROOFS. A whole well-formed computation (R221, R224): from its `START` to the last answer, under every interleaving
without a reset. -/

namespace Sys2Proof.Machine

/-! ### Turns -/

/-- A step uses up its turn. -/
theorem step_sched {s t : State} (h : step s = .next t) : t.sched = s.sched.tail := by
  rcases step_cases s with ⟨i, henabled, -, hrun⟩ | ⟨cw, i, -, hdecode, -, hrun⟩ | ⟨cw, why, -, -, -, hrun⟩ |
    ⟨-, hrun⟩ | ⟨-, hrun⟩ | ⟨-, hrun⟩ <;> rw [hrun] at h
  · exact (exec_microOp_outside (enabled_isMicroOp henabled) h).2.2.2
  · rcases exec_command_taken (decodeCommand_isMicroOp hdecode) h with ⟨-, rfl⟩ | ⟨r, htaken⟩
    · rfl
    · exact htaken.sched
  · obtain ⟨r, htaken⟩ := execIllegal_taken h
    exact htaken.sched
  · cases h
    exact (presentNext_outside _).2.1
  · cases h
    rfl
  · cases h
    rfl

/-- Whose turn it is when none is given, and what that says of the state (log 3). -/
def FairTurn (s : State) : Turn → Prop
  | .engine => enabled s = none → pending s = []
  | .command => enabled s = none ∧ s.port ≠ none
  | .present => s.port = none ∧ s.host ≠ []
  | .rst => False

theorem nextTurn_fair {s : State} (h : s.sched = []) : FairTurn s (nextTurn s) := by
  rw [nextTurn, h]
  dsimp only
  rw [fairTurn]
  cases henabled : enabled s with
  | some i => simp [FairTurn, henabled]
  | none =>
    cases hport : s.port with
    | some cw => simp [FairTurn, henabled, hport]
    | none => cases hhost : s.host <;> simp [FairTurn, pending, hport, hhost]

/-- No reset strikes when none is among the turns given. -/
theorem nextTurn_ne_rst {s : State} (h : .rst ∉ s.sched) : nextTurn s ≠ .rst := by
  intro hturn
  cases hsched : s.sched with
  | nil =>
    have hfair := nextTurn_fair hsched
    rwa [hturn] at hfair
  | cons turn rest =>
    obtain rfl := (nextTurn_of_cons hsched).symm.trans hturn
    exact h (by rw [hsched]; exact List.mem_cons_self)

theorem rst_notMem_of_step {s t : State} (hstep : step s = .next t) (h : .rst ∉ s.sched) : .rst ∉ t.sched := by
  rw [step_sched hstep]
  exact fun hmem => h (List.mem_of_mem_tail hmem)

/-! ### From the `START` on -/

/-- The word of `START` for a message of this length (R210). -/
def startWord (m : List Byte) : CommandWord := 0x01#8 ++ BitVec.ofNat 32 m.length

theorem decodeCommand_startWord (m : List Byte) :
    decodeCommand (startWord m) = .instr (.start (BitVec.ofNat 32 m.length)) :=
  decodeOfEncode (.start (BitVec.ofNat 32 m.length)) (Instr.wellFormed _)

/-- A well-formed computation over m on its way, `d` micro-operations performed: its `START` is still to be taken, or
every register holds what the functional layer says. -/
inductive OnTheWay (m : List Byte) (commands : List CommandWord) : Nat → State → Prop
  | waiting {s : State} (phase : s.pp = .idle ∨ s.pp = .done) (next : pending s = startWord m :: commands) :
      OnTheWay m commands 0 s
  | computing {s : State} (k : Nat) (computes : Computing m k s) (next : continues (missing m s) (pending s) = true) :
      OnTheWay m commands (microOpsDone m k s) s

/-- R210: the accepted `START` begins the computation. -/
theorem computing_startComputation {m : List Byte} {s : State} (hlen : m.length < 2 ^ 32) (hc : s.cp = .cidle) :
    Computing m 0 (startComputation (BitVec.ofNat 32 m.length) s) ∧
      missing m (startComputation (BitVec.ofNat 32 m.length) s) = m ∧
      microOpsDone m 0 (startComputation (BitVec.ofNat 32 m.length) s) = 0 := by
  have htoNat : (BitVec.ofNat 32 m.length).toNat = m.length := by
    rw [BitVec.toNat_ofNat]
    exact Nat.mod_eq_of_lt hlen
  have hpp : (startComputation (BitVec.ofNat 32 m.length) s).pp =
      if BitVec.ofNat 32 m.length = 0 then .pad80 else .recv := rfl
  refine ⟨⟨htoNat, padProgress_iff.mpr ?place, fun a ha => absurd ha (Nat.not_lt_zero a), rfl,
    coreProgress_of_cidle hc⟩, ?missing, ?done⟩
  case place =>
    show PadPlace m 0 (startComputation (BitVec.ofNat 32 m.length) s).pp s.cp 0 0 0
    rw [hpp]
    split
    · next hzero => exact (htoNat.symm.trans (congrArg BitVec.toNat hzero) : m.length = 0)
    · next hpos => exact ⟨rfl, Nat.pos_of_ne_zero fun h0 => hpos (by rw [h0]; rfl)⟩
  case missing =>
    by_cases hzero : BitVec.ofNat 32 m.length = 0
    · have hnil : m = [] := List.eq_nil_of_length_eq_zero (htoNat.symm.trans (congrArg BitVec.toNat hzero))
      rw [missing_of_not_recv (by rw [hpp, if_pos hzero]; nofun), hnil]
    · rw [missing_of_recv (by rw [hpp, if_neg hzero])]
      rfl
  case done =>
    show 64 * 0 + 0 - m.length + 131 * 0 + coreDone s.cp 0 = 0
    rw [hc, coreDone]
    omega

section
variable {m : List Byte} {commands : List CommandWord} (hlen : m.length < 2 ^ 32) (hcont : continues m commands = true)
include hlen hcont

theorem OnTheWay.step {d : Nat} {s t : State} (h : OnTheWay m commands d s) (hinv : Inv s) (hturn : nextTurn s ≠ .rst)
    (hstep : step s = .next t) :
    OnTheWay m commands (d + if isMicroStep s then 1 else 0) t ∧ AnswersNext m s t := by
  cases h with
  | computing k computes next =>
    obtain ⟨⟨k', -, -, hk', hdone⟩, hnext, hanswers⟩ := computes.step next hturn hstep
    exact ⟨hdone ▸ .computing k' hk' hnext, hanswers⟩
  | waiting phase next =>
    have hbusy : s.pp.busy = false := by rcases phase with hp | hp <;> rw [hp] <;> rfl
    have hnone := hinv.enabled_of_not_busy hbusy
    obtain ⟨hc, -⟩ := hinv.parts.quiet hbusy
    rw [isMicroStep_eq_false (.inr hnone)]
    rcases step_cases s with ⟨i, henabled, -, -⟩ | ⟨cw, i, hport, hdecode, hcommand, hrun⟩ |
      ⟨cw, why, hport, hdecode, -, -⟩ | ⟨-, hrun⟩ | ⟨hrst, -⟩ | ⟨-, hrun⟩
    · exact nomatch hnone.symm.trans henabled
    · obtain ⟨rfl, hhost⟩ : cw = startWord m ∧ s.host = commands := by
        simpa [pending_of_port hport] using next
      obtain rfl := Decoded.instr.inj (hdecode.symm.trans (decodeCommand_startWord m))
      have ht := hrun.symm.trans hstep
      rw [exec_start, processCommand_accept _ (disposition_start_accept (consumeTurn s).cp (consumeTurn s).n phase)] at ht
      cases ht
      obtain ⟨hcomputing, hmissing, hdone⟩ := computing_startComputation (s := consumeTurn s) hlen hc
      have hsame := respond_sameEngine false 0 (startComputation (BitVec.ofNat 32 m.length) (consumeTurn s))
      have hstarted := OnTheWay.computing (commands := commands) 0 (hsame.computing hcomputing)
        (show continues _ s.host = true by rw [hsame.missing_eq, hmissing, hhost]; exact hcont)
      rw [hsame.microOpsDone_eq, hdone] at hstarted
      have hanswered : Answered m (startWord m) ⟨false, 0⟩ := ⟨rfl, by rw [decodeCommand_startWord]⟩
      exact ⟨hstarted, .inr ⟨startWord m, _, pending_of_port hport, rfl, hanswered⟩⟩
    · obtain ⟨rfl, -⟩ : cw = startWord m ∧ s.host = commands := by
        simpa [pending_of_port hport] using next
      exact nomatch hdecode.symm.trans (decodeCommand_startWord m)
    · obtain rfl := Host.Outcome.next.inj (hrun.symm.trans hstep)
      have hsame := (consumeTurn_sameEngine s).trans (presentNext_sameEngine _)
      have hpending := presentNext_pending (consumeTurn s)
      exact ⟨.waiting (hsame.pp ▸ phase) (hpending.trans next), .inl ⟨hpending, (presentNext_outside _).1⟩⟩
    · exact absurd hrst hturn
    · obtain rfl := Host.Outcome.next.inj (hrun.symm.trans hstep)
      exact ⟨.waiting phase next, .inl ⟨rfl, rfl⟩⟩

/-- R224 (1), (3), (4): along a run the commands taken are answered in order. -/
theorem OnTheWay.run_answers {d j : Nat} {s t : State} (h : OnTheWay m commands d s) (hinv : Inv s)
    (hrst : .rst ∉ s.sched) (hrun : run j s = .next t) :
    ∃ taken answers, pending s = taken ++ pending t ∧ t.rsp = s.rsp ++ answers ∧
      List.Forall₂ (Answered m) taken answers := by
  induction j generalizing d s with
  | zero =>
    cases hrun
    exact ⟨[], [], rfl, (List.append_nil _).symm, .nil⟩
  | succ j ih =>
    obtain ⟨u, hstep, hrest⟩ := run_succ_next hrun
    obtain ⟨hu, hanswers⟩ := h.step hlen hcont hinv (nextTurn_ne_rst hrst) hstep
    obtain ⟨taken, answers, hpending, hrsp, hall⟩ :=
      ih hu (everyStepKeepsTheInvariant s u hinv hstep) (rst_notMem_of_step hstep hrst) hrest
    rcases hanswers with ⟨hsame, hquiet⟩ | ⟨cw, r, htaken, hr, hanswered⟩
    · exact ⟨taken, answers, by rw [← hsame, hpending], by rw [hrsp, hquiet], hall⟩
    · exact ⟨cw :: taken, r :: answers, by rw [htaken, hpending]; rfl, by rw [hrsp, hr, List.append_assoc]; rfl,
        .cons hanswered hall⟩

end

/-- Settles O59: the run begins with the `START` still to be taken. -/
theorem wellFormedComputationIsAnsweredByCompute : Obligations.WellFormedComputationIsAnsweredByCompute := by
  intro m commands s t j hlen hinv hp hport hhost hcont hrst hrun
  have hpending := pending_of_free hport
  have hstart : OnTheWay m commands 0 s := .waiting hp (hpending.trans hhost)
  rw [← hpending]
  exact hstart.run_answers hlen hcont hinv hrst hrun

end Sys2Proof.Machine
end

section
/-! PROOFS. A well-formed computation ends (R219, R224), whatever turns are given first, after exactly the
micro-operations of R224 (2). -/

namespace Sys2Proof.Machine

/-! ### The number of micro-operations -/

/-- R224 (2): the micro-operations of a whole computation. -/
def totalMicroOps (m : List Byte) : Nat := 131 * blockCount m.length + 9 + zeroCount m.length

/-- Before the end the block in progress is one of the message's. -/
theorem Computing.microOpsDone_le {m : List Byte} {k : Nat} {s : State} (h : Computing m k s) :
    microOpsDone m k s ≤ totalMicroOps m := by
  have hblocks := pad_length_blocks m
  have hcore := coreDone_le s.cp s.t
  have hn : s.n.val ≤ 64 := Nat.le_of_lt_succ s.n.isLt
  have hplace := h.padPlace
  rw [microOpsDone, totalMicroOps]
  cases hp : s.pp <;> rw [hp] at hplace
  case idle | fault => exact hplace.elim
  case recv | pad80 | pad00 | padlen =>
    simp only [PadPlace] at hplace
    have hk : k + 1 ≤ blockCount m.length := by omega
    omega
  case done =>
    obtain ⟨hk, hzero, hc⟩ := hplace
    rw [hc, coreDone]
    omega

/-- R112 in the states of the invariant: no micro-operation is enabled exactly while the host or nobody is to act. -/
theorem Inv.cases_of_enabled_none {s : State} (h : Inv s) (hnone : enabled s = none) :
    s.cp = .cidle ∧ s.n.val < 64 ∧ (s.pp = .idle ∨ s.pp = .recv ∨ s.pp = .done ∨ s.pp = .fault) := by
  obtain ⟨-, -, -, -, -, -, -, -, -, hquiet⟩ := microOpSelection.2.2.1 s h.rule52
  exact hquiet.mp hnone

/-- The computation is at its end when the engine is quiescent and every command is taken. -/
theorem OnTheWay.ended {m : List Byte} {commands : List CommandWord} {d : Nat} {s : State}
    (h : OnTheWay m commands d s) (hinv : Inv s) (hnone : enabled s = none) (hpending : pending s = []) :
    s.pp = .done ∧ s.h = someWords (hashAfter m (blockCount m.length)) ∧ d = totalMicroOps m := by
  cases h with
  | waiting _ next => rw [hpending] at next; cases next
  | computing k computes next =>
    have hplace := computes.padPlace
    obtain ⟨-, -, hp | hp | hp | hp⟩ := hinv.cases_of_enabled_none hnone
    · exact (hp ▸ hplace : PadPlace m k .idle s.cp s.n.val s.q.val s.cnt.toNat).elim
    · rw [hpending] at next
      exact absurd (List.isEmpty_iff.mp next) (computes.missing_ne_nil hp)
    · rw [hp] at hplace
      obtain ⟨hk, hn, hc⟩ := hplace
      have hblocks := pad_length_blocks m
      refine ⟨hp, computes.hash_of_done hp, ?_⟩
      rw [microOpsDone, totalMicroOps, hc, coreDone]
      omega
    · exact (hp ▸ hplace : PadPlace m k .fault s.cp s.n.val s.q.val s.cnt.toNat).elim

theorem OnTheWay.le_total {m : List Byte} {commands : List CommandWord} {d : Nat} {s : State}
    (h : OnTheWay m commands d s) : d ≤ totalMicroOps m := by
  cases h with
  | waiting => exact Nat.zero_le _
  | computing k computes _ => exact computes.microOpsDone_le

/-! ### Steps with no micro-operation -/

/-- The words to be presented, each counted twice, and the word at the port: what the host and the command use up. -/
def wordsLeft (s : State) : Nat := 2 * s.host.length + s.port.toList.length

/-- While no micro-operation is enabled no command is held. -/
theorem Inv.not_held {s : State} (h : Inv s) (hnone : enabled s = none) (c : CommandKind) :
    disposition c s.pp s.cp s.n ≠ .hold := by
  obtain ⟨hc, hn, hp⟩ := h.cases_of_enabled_none hnone
  rcases hp with hp | hp | hp | hp <;> rw [hp] <;> cases c <;> simp [disposition, hc, hn]

/-- Taking the presented word uses it up. -/
theorem Taken.wordsLeft_lt {s t : State} {r : Response} (h : Taken s t r) (hport : s.port ≠ none) :
    wordsLeft t < wordsLeft s := by
  obtain ⟨cw, hcw⟩ := Option.ne_none_iff_exists'.mp hport
  rw [wordsLeft, wordsLeft, h.port, h.host, hcw]
  exact Nat.lt_succ_self _

/-- Presenting a word moves it to the port. -/
theorem presentNext_wordsLeft_lt {s : State} (hport : s.port = none) (hhost : s.host ≠ []) :
    wordsLeft (presentNext s) < wordsLeft s := by
  obtain ⟨cw, rest, hcons⟩ := List.exists_cons_of_ne_nil hhost
  rw [presentNext_of_host hport hcons, wordsLeft, wordsLeft, hport, hcons]
  simp only [Option.toList, List.length_cons, List.length_nil]
  omega

/-- With the port taken or no word to present the host's turn is idle (log 9). -/
theorem presentNext_eq_self {s : State} (h : ¬ (s.port = none ∧ s.host ≠ [])) : presentNext s = s := by
  cases hport : s.port with
  | some cw => exact presentNext_of_port hport
  | none =>
    have hhost : s.host = [] := by
      by_contra hhost
      exact h ⟨hport, hhost⟩
    exact presentNext_of_empty hport hhost

/-- What the turn of an agent with something to do does when it was not given: with none given the engine goes first,
and an idle turn means that all is done (log 3). -/
theorem step_progress {s t : State} (hinv : Inv s) (hrst : nextTurn s ≠ .rst) (hstep : step s = .next t)
    (hmore : ¬ (s.sched = [] ∧ enabled s = none ∧ pending s = [])) :
    (isMicroStep s = true ∧ wordsLeft t = wordsLeft s) ∨
    (isMicroStep s = false ∧ (wordsLeft t < wordsLeft s ∨ wordsLeft t = wordsLeft s ∧ s.sched ≠ [])) := by
  rcases step_cases s with ⟨i, henabled, hengine, hrun⟩ | ⟨cw, i, hport, hdecode, hcommand, hrun⟩ |
    ⟨cw, why, hport, -, hcommand, hrun⟩ | ⟨hpresent, hrun⟩ | ⟨hreset, -⟩ | ⟨hidle, hrun⟩
  · obtain ⟨-, hport, hhost, -⟩ := exec_microOp_outside (enabled_isMicroOp henabled) (hrun.symm.trans hstep)
    exact .inl ⟨isMicroStep_of_enabled hengine henabled, by rw [wordsLeft, hport, hhost]; rfl⟩
  · refine .inr ⟨isMicroStep_eq_false (.inl (by rw [hcommand]; nofun)), ?_⟩
    rcases exec_command_taken (decodeCommand_isMicroOp hdecode) (hrun.symm.trans hstep) with ⟨hheld, rfl⟩ | ⟨r, htaken⟩
    · refine .inr ⟨rfl, fun hsched => ?_⟩
      have hfair := nextTurn_fair hsched
      rw [hcommand] at hfair
      exact hinv.not_held hfair.1 _ hheld
    · exact .inl (htaken.wordsLeft_lt (s := consumeTurn s) (by simp [hport]))
  · obtain ⟨r, htaken⟩ := execIllegal_taken (hrun.symm.trans hstep)
    exact .inr ⟨isMicroStep_eq_false (.inl (by rw [hcommand]; nofun)),
      .inl (htaken.wordsLeft_lt (s := consumeTurn s) (by simp [hport]))⟩
  · refine .inr ⟨isMicroStep_eq_false (.inl (by rw [hpresent]; nofun)), ?_⟩
    obtain rfl := Host.Outcome.next.inj (hrun.symm.trans hstep)
    by_cases hfree : s.port = none ∧ s.host ≠ []
    · exact .inl (presentNext_wordsLeft_lt (s := consumeTurn s) hfree.1 hfree.2)
    · rw [presentNext_eq_self (s := consumeTurn s) hfree]
      refine .inr ⟨rfl, fun hsched => ?_⟩
      have hfair := nextTurn_fair hsched
      rw [hpresent] at hfair
      exact hfree hfair
  · exact absurd hreset hrst
  · obtain rfl := Host.Outcome.next.inj (hrun.symm.trans hstep)
    refine .inr ⟨isMicroStep_eq_false (hidle.symm.imp (fun ⟨hcommand, _⟩ => by rw [hcommand]; nofun) (·.2)), .inr ⟨rfl, fun hsched => ?_⟩⟩
    have hfair := nextTurn_fair hsched
    rcases hidle with ⟨hengine, hnone⟩ | ⟨hcommand, hport⟩
    · rw [hengine] at hfair
      exact hmore ⟨hsched, hnone, hfair hnone⟩
    · rw [hcommand] at hfair
      exact hfair.2 hport

/-- From every state of the computation its end is reached: each step performs a micro-operation or uses up a word or a
turn. -/
theorem OnTheWay.ends {m : List Byte} {commands : List CommandWord} (hlen : m.length < 2 ^ 32)
    (hcont : continues m commands = true) {d : Nat} {s : State} (h : OnTheWay m commands d s) (hinv : Inv s)
    (hrst : .rst ∉ s.sched) : ∃ j t, run j s = .next t ∧ OnTheWay m commands (d + microSteps j s) t ∧ Inv t ∧
      enabled t = none ∧ pending t = [] := by
  induction hleft : (totalMicroOps m - d) + wordsLeft s + s.sched.length using Nat.strong_induction_on generalizing d s with
  | _ left ih =>
    by_cases hend : s.sched = [] ∧ enabled s = none ∧ pending s = []
    · exact ⟨0, s, rfl, h, hinv, hend.2⟩
    · obtain ⟨u, hstep⟩ := nothingStopsTheMachine s hinv
      have hturn := nextTurn_ne_rst hrst
      obtain ⟨hu, -⟩ := h.step hlen hcont hinv hturn hstep
      have hsched := congrArg List.length (step_sched hstep)
      rw [List.length_tail] at hsched
      have hless : (totalMicroOps m - (d + if isMicroStep s then 1 else 0)) + wordsLeft u + u.sched.length < left := by
        have htotal := hu.le_total
        rcases step_progress hinv hturn hstep hend with ⟨hmicro, hwords⟩ | ⟨hmicro, hwords | ⟨hwords, hgiven⟩⟩
        · rw [hmicro, if_pos rfl] at htotal ⊢
          omega
        · rw [hmicro, if_neg Bool.false_ne_true]
          omega
        · have hpos := List.length_pos_iff.mpr hgiven
          rw [hmicro, if_neg Bool.false_ne_true]
          omega
      obtain ⟨j, t, hrun, hway, hrest⟩ := ih _ hless hu (everyStepKeepsTheInvariant s u hinv hstep)
        (rst_notMem_of_step hstep hrst) rfl
      refine ⟨j + 1, t, (run_succ_of_next hstep).trans hrun, ?_, hrest⟩
      rw [microSteps_succ_of_next hstep, ← Nat.add_assoc]
      exact hway

/-- Settles O60: at the end of the run every register is the functional layer's. -/
theorem wellFormedComputationEnds : Obligations.WellFormedComputationEnds := by
  intro m commands s hlen hinv hp hport hhost hcont hrst
  have hstart : OnTheWay m commands 0 s := .waiting hp ((pending_of_free hport).trans hhost)
  obtain ⟨j, t, hrun, hway, hinvt, hnone, hpending⟩ := hstart.ends hlen hcont hinv hrst
  obtain ⟨hdone, hhash, htotal⟩ := hway.ended hinvt hnone hpending
  exact ⟨j, t, hrun, hpending, hdone, by rw [quiescent, hnone]; rfl, hhash, (Nat.zero_add _).symm.trans htotal⟩

end Sys2Proof.Machine
end
